-- ==== Sys2Proof/Config.lean ====
section
/-! DEFINITION. What is fixed for one DJD: the parameter `BUF_SIZE` and the fixed geometry of spec 00_scope.md R5.
The block leaves no result undefined, so there is no free value here. -/

namespace Sys2Proof

/-- The implementation parameters that a realisation chooses (R5, D32): the capacity of `BUF` in bytes. It is
carried by the state as plain data, so that a statement about every state is one about every `BUF_SIZE`.
DESIGN CHOICE (log entry 2), safe. -/
structure Config where
  bufSize : Nat
deriving DecidableEq, Repr

/-- The default R5 gives: `BUF_SIZE` = 65536. -/
def Config.standard : Config := { bufSize := 65536 }

/-- The range R5 allows: `1 <= BUF_SIZE <= 2^32`. -/
abbrev Config.Valid (c : Config) : Prop := 1 ≤ c.bufSize ∧ c.bufSize ≤ 2 ^ 32

/-- `KEY_MOD` (R5, R102): the keystream is `i mod 256`. -/
abbrev keyMod : Nat := 256

/-- `STRIP_ROWS` (R5, R121): rows per strip. -/
abbrev stripRows : Nat := 8

/-- `STRIP_BYTES` (R5, R121): bytes per strip. -/
abbrev stripBytes : Nat := 32

/-- `GRID_BYTES` (R5, R122): bytes one grid occupies. -/
abbrev gridBytes : Nat := 192

/-- `SPR_BYTES` (R5, R142): bytes one tile occupies. -/
abbrev spriteBytes : Nat := 24

end Sys2Proof
end

