-- ==== Sys2Proof/Word.lean ====
section
/-! DEFINITION. The value types of the DJD: bytes, 32-bit registers, pixels and the two result arrays
(spec 00_scope.md R5, R6, R9; 10_state.md R21, R30, R33). -/

namespace Sys2Proof

/-- A byte of `BUF`: 8 bits (R60). -/
abbrev Byte := BitVec 8

/-- A register value or a command word: `REG_W` = 32 bits (R5, R21). -/
abbrev Word := BitVec 32

/-- A pixel: a 2-bit palette index, 0 to 3 (R33). -/
abbrev Pixel := BitVec 2

/-- The shape of `GRIDOUT`: 48 rows of 32 bits, indexed `[row][column]` (R9, R30). -/
abbrev Grid := Vector (Vector Bool 32) 48

/-- The shape of `SPROUT`: 12 rows of 8 pixels, indexed `[row][column]` (R9, R33, C2). -/
abbrev Sprite := Vector (Vector Pixel 8) 12

end Sys2Proof
end

