-- ==== Sys2Proof/Machine/Access.lean ====
section
/-! DEFINITION. What the host can do to a DJD: its accesses, the register index space they name, the platform's
reset, and the values reads give back (spec 45_host_access.md R160 to R165, 10_state.md R21, 70_reset_and_hazards.md
R230). -/

namespace Sys2Proof.Machine

/-- One host access (R160). The numbers are naturals, because a host may name what the DJD does not have (R163).
The `cmd` form of R85 is `wrr` to index 0x00. -/
inductive Access where
  /-- `wrb a, v`: write byte `v` to `BUF[a]` (R161). -/
  | wrb (a v : Nat)
  /-- `rdb a`: read `BUF[a]` (R162). -/
  | rdb (a : Nat)
  /-- `wrr i, v`: write `v` to the register of index `i` (R164). -/
  | wrr (i v : Nat)
  /-- `rdr i`: read the register of index `i` (R165). -/
  | rdr (i : Nat)
deriving DecidableEq, Repr

/-- What can happen to a DJD next: a host access, or the platform's reset, which no access causes (R230). -/
inductive Event where
  | access (a : Access)
  | reset
deriving DecidableEq, Repr

/-- What a host read gives back: a byte of `BUF` (R162) or a 32-bit register value (R165). -/
inductive HostValue where
  | byte (v : Byte)
  | word (v : Word)
deriving DecidableEq, Repr

/-- The registers of the index space (R21), by name. -/
inductive Reg where
  | cmd
  | status
  | blklen
  | offset
  | len
  | gridRow (r : Fin 48)
  | sprRow (r : Fin 12)
  /-- a reserved index: it reads 0 and ignores writes -/
  | reserved (i : Nat)
deriving DecidableEq, Repr

/-- The register map of R21: every index 0x00 to 0xFF names a register, no other index does. -/
def Reg.ofIndex (i : Nat) : Option Reg :=
  if i = 0x00 then some .cmd
  else if i = 0x01 then some .status
  else if i = 0x02 then some .blklen
  else if i = 0x03 then some .offset
  else if i = 0x04 then some .len
  else if h : 0x10 ≤ i ∧ i < 0x40 then some (.gridRow ⟨i - 0x10, by omega⟩)
  else if h : 0x40 ≤ i ∧ i < 0x4C then some (.sprRow ⟨i - 0x40, by omega⟩)
  else if i ≤ 0xFF then some (.reserved i)
  else none

/-- The index of a register (R21). -/
def Reg.index : Reg → Nat
  | .cmd => 0x00
  | .status => 0x01
  | .blklen => 0x02
  | .offset => 0x03
  | .len => 0x04
  | .gridRow r => 0x10 + r
  | .sprRow r => 0x40 + r
  | .reserved i => i

end Sys2Proof.Machine
end

