-- ==== Sys2Proof/Machine/State.lean ====
section
/-! DEFINITION. The state of one DJD, its value after reset, and the reasons a step can stop (spec 10_state.md;
60_exceptions.md R216; 70_reset_and_hazards.md R230). -/

namespace Sys2Proof.Machine

/-- The bytes of `BUF` that hold a value, as (address, byte) pairs with addresses strictly rising. An address that is
not listed holds no value: its written mark `BUF_W[a]` is clear (R38). One list for `BUF` and `BUF_W`: DESIGN CHOICE (log
entry 5), safe. -/
abbrev Memory := List Host.Cell

/-- The state of one DJD and of the host's side of it. `CMD` and the reserved registers keep no value (R21, R25);
`GRIDROW` and `SPRROW` are views of `gridOut` and `sprOut` (R31, R34). -/
structure State where
  /-- the implementation parameter `BUF_SIZE` (R5); no step changes it -/
  cfg : Config
  /-- `STATUS` (R26) -/
  status : Word
  /-- `BLKLEN` (R22) -/
  blklen : Word
  /-- `OFFSET` (R23) -/
  offset : Word
  /-- `LEN` (R24) -/
  len : Word
  /-- `BUF` with its written marks `BUF_W` (R38, R60) -/
  buf : Memory
  /-- `GRIDOUT` (R30) -/
  gridOut : Grid
  /-- `GRID_V` (R38) -/
  gridV : Bool
  /-- `SPROUT` (R33) -/
  sprOut : Sprite
  /-- `SPR_V` (R38) -/
  sprV : Bool
  /-- what happens next, in the host's issue order (R69, R160); the model's own field, DESIGN CHOICE (log entry 1), safe -/
  pending : List Event
  /-- the values host reads gave back, oldest first (R162, R165); the model's own field, DESIGN CHOICE (log entry 1), safe -/
  reads : List HostValue
deriving DecidableEq, Repr

/-- A DJD with parameters `cfg` right after reset (R40): registers 0, no byte of `BUF` listed, the marks clear.
DESIGN CHOICE (log entry 4): the unspecified `GRIDOUT` and `SPROUT` hold zeros, which no read can see while the marks
are clear (R165); unsafe. -/
def State.resetFor (cfg : Config) : State where
  cfg := cfg
  status := 0#32
  blklen := 0#32
  offset := 0#32
  len := 0#32
  buf := []
  gridOut := Vector.replicate 48 (Vector.replicate 32 false)
  gridV := false
  sprOut := Vector.replicate 12 (Vector.replicate 8 0#2)
  sprV := false
  pending := []
  reads := []

/-- The DJD with the default `BUF_SIZE` of R5 right after reset. -/
def State.reset : State := State.resetFor Config.standard

/-- The model faults (R216). -/
inductive Fault where
  /-- `UNINIT_READ` (R38): raised by a command whose window holds a byte nothing has written, by `rdb` of such a byte,
  and by `rdr` of `GRIDROW` or `SPRROW` while `GRID_V` or `SPR_V` is clear. Safe: the hardware reads some value there
  and goes on, the model stops, as R38 says. -/
  | uninitRead
deriving DecidableEq, Repr

/-- The refusals (R163, R216). -/
inductive Refusal where
  /-- Raised by an arm of `exec` for a command without a meaning. Safe. No command of this model lacks one. -/
  | notModelled (mnemonic : String)
  /-- Raised by `wrb` and `rdb` at an address at or beyond `BUF_SIZE` (R163). Safe: the spec gives no effect. -/
  | badAddress
  /-- Raised by `wrb` of a value above 255 (R163). Safe: the spec gives no effect. -/
  | badByte
  /-- Raised by `wrr` and `rdr` of an index above 0xFF (R163). Safe: the spec gives no effect. -/
  | badIndex
  /-- Raised by `wrr` of a value of 2^32 or more (R163). Safe: the spec gives no effect. -/
  | badValue
deriving DecidableEq, Repr

end Sys2Proof.Machine
end

