-- ==== Sys2Proof/Syntax.lean ====
section
/-! DEFINITION. The commands of the DJD: one constructor per row of spec/opcode_table.json (30_encoding.md R81).
The command word carries no operand (R80), so no constructor has an argument. -/

namespace Sys2Proof

/-- The three commands, one per functional unit (00_scope.md R1). -/
inductive Instr where
  /-- `UNSCRAMBLE`, 0x00000001 (40_descrambler.md R100). -/
  | unscramble
  /-- `DECODE_GRID`, 0x00000002 (41_grid_decoder.md R120). -/
  | decodeGrid
  /-- `DECODE_SPRITE`, 0x00000003 (42_sprite_unpacker.md R140). -/
  | decodeSprite
deriving DecidableEq, Repr

end Sys2Proof
end

