-- ==== Sys2Proof/Decode.lean ====
section
/-! DEFINITION. Decoding a command word, and the encoder (spec 30_encoding.md R80 to R83). The word is a 32-bit value
written to `CMD`, not bytes of `BUF` (20_memory.md R72), so no byte order enters. -/

namespace Sys2Proof

/-- Why a word is no command (R82). -/
inductive DecodeError where
  /-- `RSV` is not 0, whatever `OP` holds -/
  | reservedBits
  /-- `RSV` is 0 and `OP` is 0x0 or 0x4 to 0xF -/
  | reservedOp
deriving DecidableEq, Repr

/-- `OP` = bits [3:0] of the command word (R80). -/
def opField (w : Word) : BitVec 4 := w.extractLsb' 0 4

/-- `RSV` = bits [31:4] of the command word (R80). -/
def rsvField (w : Word) : BitVec 28 := w.extractLsb' 4 28

/-- The opcode map of R81; `none` for the reserved codes of R82. -/
def instrOfOp (op : BitVec 4) : Option Instr :=
  match op.toNat with
  | 1 => some .unscramble
  | 2 => some .decodeGrid
  | 3 => some .decodeSprite
  | _ => none

/-- Decoding is total (R83): each word is a command or is rejected by name. -/
def decode (w : Word) : Except DecodeError Instr :=
  if rsvField w = 0#28 then
    match instrOfOp (opField w) with
    | some i => .ok i
    | none => .error .reservedOp
  else .error .reservedBits

/-- The operation code of each command (R81). -/
def opOf : Instr → BitVec 4
  | .unscramble => 0x1#4
  | .decodeGrid => 0x2#4
  | .decodeSprite => 0x3#4

/-- The command word of each command: `RSV` zero, then `OP` (R80, R81). -/
def encode (i : Instr) : Word := 0#28 ++ opOf i

/-- The command the decoder reads from the low `nbits` bits of `w`, every bit above them 0, numbered as
spec/opcode_table.json numbers them. A value that does not fit in 32 bits is no command word (R163). -/
def decodeTableWord (nbits w : Nat) : Option Instr :=
  if w % 2 ^ nbits < 2 ^ 32 then
    match decode (BitVec.ofNat 32 (w % 2 ^ nbits)) with
    | .ok i => some i
    | .error _ => none
  else none

end Sys2Proof
end

