-- ==== Sys2Proof/Machine/Operands.lean ====
section
/-! DEFINITION. How commands read their operand registers: unsigned 32-bit naturals, no extension or scaling, sums
without wrap-around (spec 30_encoding.md R84; 00_scope.md R6; 60_exceptions.md R211). -/

namespace Sys2Proof.Machine

/-- `BLKLEN` as a length (R22). -/
def State.blockLength (s : State) : Nat := s.blklen.toNat

/-- `OFFSET` as a byte address, the source's `baseOffset` (R23). -/
def State.baseOffset (s : State) : Nat := s.offset.toNat

/-- `LEN` as the length of the tile slice (R24). -/
def State.tileLength (s : State) : Nat := s.len.toNat

/-- `BLKLEN > BUF_SIZE` (R211). -/
def State.blockTooLong (s : State) : Bool := decide (s.cfg.bufSize < s.blockLength)

/-- `OFFSET + n > BLKLEN`: the `n` bytes from `OFFSET` on leave the block (R123, R143). -/
def State.windowBeyond (s : State) (n : Nat) : Bool := decide (s.blockLength < s.baseOffset + n)

/-- `LEN != 24` (R142). -/
def State.tileLengthWrong (s : State) : Bool := decide (s.tileLength ≠ spriteBytes)

end Sys2Proof.Machine
end

