-- ==== Sys2Proof/Machine/Flags.lean ====
section
/-! DEFINITION. The error codes and the `STATUS` word (spec 10_state.md R26, R27; 60_exceptions.md R210). -/

namespace Sys2Proof.Machine

/-- The error codes a command can end with (R210). Codes 4 to 15 are never written. -/
inductive ErrorCode where
  | success
  | illegalCommand
  | malformedSprite
  | outOfRange
deriving DecidableEq, Repr

/-- The 4-bit `ECODE` of each error code (R210). -/
def ErrorCode.bits : ErrorCode → BitVec 4
  | .success => 0#4
  | .illegalCommand => 1#4
  | .malformedSprite => 2#4
  | .outOfRange => 3#4

/-- `ERR`: 1 for a failed command, 0 for a successful one (R27). -/
def ErrorCode.errBit : ErrorCode → BitVec 1
  | .success => 0#1
  | .illegalCommand => 1#1
  | .malformedSprite => 1#1
  | .outOfRange => 1#1

/-- The word R27 writes: `{zeros(24), ECODE(4), 00, ERR(1), 1}`. -/
def statusWord (code : ErrorCode) : Word := 0#24 ++ code.bits ++ 0#2 ++ code.errBit ++ 1#1

/-- `STATUS.DONE`, bit 0 (R26). -/
def statusDone (w : Word) : Bool := w.getLsbD 0

/-- `STATUS.ERR`, bit 1 (R26). -/
def statusErr (w : Word) : Bool := w.getLsbD 1

/-- `STATUS.ECODE`, bits [7:4] (R26). -/
def statusEcode (w : Word) : BitVec 4 := w.extractLsb' 4 4

end Sys2Proof.Machine
end

