-- ==== Sys2Proof/Machine/Ops.lean ====
section
/-! DEFINITION. The named operations over `BUF`, the registers and the host's queue, and the one shape every command
has: check, read, write, end with `STATUS` (spec 00_scope.md R8; 10_state.md R27, R38; 20_memory.md R62 to R66;
60_exceptions.md R212, R213). -/

namespace Sys2Proof.Machine

/-- The canonical form of `BUF`: addresses strictly rising. An unlisted address has no value, so there is no entry to
leave out. -/
abbrev Memory.wf (m : Memory) : Prop := m.Pairwise (fun c d => c.1 < d.1)

/-- `MemRead(a, 1)` (R8); `none` where the written mark `BUF_W[a]` is clear (R38). -/
def Memory.read : Memory → Nat → Option Byte
  | [], _ => none
  | c :: m, a => if c.1 = a then some c.2 else Memory.read m a

/-- `MemWrite(a, 1, v)`, which also sets the mark `BUF_W[a]` (R8, R38, R161). -/
def Memory.write : Memory → Nat → Byte → Memory
  | [], a, v => [(a, v)]
  | c :: m, a, v =>
    if a < c.1 then (a, v) :: c :: m
    else if a = c.1 then (a, v) :: m
    else c :: Memory.write m a v

/-- The `n` bytes from `base` on, in order; `none` if one of them is unwritten (R38). -/
def Memory.readRange (m : Memory) (base : Nat) : Nat → Option (List Byte)
  | 0 => some []
  | n + 1 =>
    match Memory.read m base with
    | none => none
    | some b => (Memory.readRange m (base + 1) n).map (fun bs => b :: bs)

/-- Write the bytes of a list to consecutive addresses from `base` on, one at a time (R63). -/
def Memory.writeRange (m : Memory) (base : Nat) : List Byte → Memory
  | [] => m
  | b :: bs => Memory.writeRange (Memory.write m base b) (base + 1) bs

/-- Replace `BUF`. -/
def State.setBuf (s : State) (m : Memory) : State := { s with buf := m }

/-- Write `STATUS`. -/
def State.setStatus (s : State) (w : Word) : State := { s with status := w }

/-- Write `BLKLEN`. -/
def State.setBlklen (s : State) (w : Word) : State := { s with blklen := w }

/-- Write `OFFSET`. -/
def State.setOffset (s : State) (w : Word) : State := { s with offset := w }

/-- Write `LEN`. -/
def State.setLen (s : State) (w : Word) : State := { s with len := w }

/-- Write all of `GRIDOUT` and set `GRID_V` (R120, R124). -/
def State.setGrid (s : State) (g : Grid) : State := { s with gridOut := g, gridV := true }

/-- Write all of `SPROUT` and set `SPR_V` (R140, R144). -/
def State.setSprite (s : State) (p : Sprite) : State := { s with sprOut := p, sprV := true }

/-- Replace what happens next. -/
def State.setPending (s : State) (es : List Event) : State := { s with pending := es }

/-- Give a value back to the host (R162, R165). -/
def State.giveHost (s : State) (v : HostValue) : State := { s with reads := s.reads ++ [v] }

/-- Write bytes of a command into `BUF` (R100). -/
def State.writeBytes (s : State) (base : Nat) (bs : List Byte) : State :=
  s.setBuf (Memory.writeRange s.buf base bs)

/-- The `STATUS` write that ends every command (R27). -/
def State.endCommand (s : State) (code : ErrorCode) : State := s.setStatus (statusWord code)

/-- `raise Error(code)` (R8): the one way a command fails. Nothing but `STATUS` is written (R213); nothing is saved, no
mode changes and control goes nowhere (R214), so there is no return from it either (R215). -/
def State.raise (s : State) (code : ErrorCode) : Host.Outcome State Fault Refusal := .next (s.endCommand code)

/-- The first error whose condition holds: a command reports exactly one, in the order of R212. -/
def firstError : List (Bool × ErrorCode) → Option ErrorCode
  | [] => none
  | (applies, code) :: rest => if applies then some code else firstError rest

/-- The shape of every command: the error checks in order, then the reads of the `n` bytes from `base` on, which fault
on an unwritten byte before anything is written (R38, R212), then the effect and the `STATUS` of success (R27). -/
def State.runCommand (s : State) (checks : List (Bool × ErrorCode)) (base n : Nat)
    (effect : List Byte → State → State) : Host.Outcome State Fault Refusal :=
  match firstError checks with
  | some code => s.raise code
  | none =>
    match Memory.readRange s.buf base n with
    | none => .fault .uninitRead
    | some bs => .next ((effect bs s).endCommand .success)

/-- The platform's reset (R230): every piece of the block's state takes its value of R40. The host's own pending
accesses and the values it got back are not the block's state; DESIGN CHOICE (log entry 3): they stay; unsafe. -/
def State.applyReset (s : State) : State :=
  { State.resetFor s.cfg with pending := s.pending, reads := s.reads }

/-- Take what happens next, in the host's issue order (R69). -/
def State.nextEvent (s : State) : Option (Event × State) :=
  match s.pending with
  | [] => none
  | e :: rest => some (e, s.setPending rest)

/-- `s` with the 32-bit word `v` written to `CMD` as the very next access. -/
def State.withCommand (s : State) (v : Nat) : State :=
  s.setPending (.access (.wrr 0x00 v) :: s.pending)

end Sys2Proof.Machine
end

