-- ==== Sys2Proof/Machine/Descrambler.lean ====
section
/-! DEFINITION. The XOR descrambler and `UNSCRAMBLE` (spec 40_descrambler.md R100 to R104; 10_state.md R36). -/

namespace Sys2Proof.Machine

/-- The key of byte `i` of a block: `i mod 256`, whatever the byte (R102). -/
def keyByte (i : Nat) : Byte := BitVec.ofNat 8 (i % keyMod)

/-- Descramble bytes of which the first stands at position `i` of its block (R100). -/
def descrambleFrom (i : Nat) : List Byte → List Byte
  | [] => []
  | b :: bs => (b ^^^ keyByte i) :: descrambleFrom (i + 1) bs

/-- The source's `unscramble(bytes)`: `output[i] = input[i] XOR (i mod 256)` (R100). -/
def descramble (bs : List Byte) : List Byte := descrambleFrom 0 bs

/-- The engine's form (R36, R102): the 8-bit counter `K`, advanced by 1 modulo 256 after each byte. It starts at 0.
It lives inside one command only (R36, R40), so it is an argument here and no field of the state: DEDUCED (log entry 9),
safe. -/
def descrambleCounter (k : Byte) : List Byte → List Byte
  | [] => []
  | b :: bs => (b ^^^ k) :: descrambleCounter (k + 1#8) bs

/-- `UNSCRAMBLE` (R100): descramble `BUF[0 .. BLKLEN)` in place. `OFFSET` and `LEN` are not read. -/
def execUnscramble (s : State) : Host.Outcome State Fault Refusal :=
  s.runCommand [(s.blockTooLong, .outOfRange)] 0 s.blockLength
    (fun bs t => t.writeBytes 0 (descramble bs))

end Sys2Proof.Machine
end

