-- ==== Sys2Proof/Machine/GridDecoder.lean ====
section
/-! DEFINITION. The bitmap grid decoder and `DECODE_GRID` (spec 41_grid_decoder.md R120 to R127). -/

namespace Sys2Proof.Machine

/-- `sourceRowOffset(r)`: where row `r` starts, from the grid's first byte (R121). -/
def sourceRowOffset (r : Nat) : Nat := r / stripRows * stripBytes + r % stripRows

/-- Where the byte of column group `g` (0, 8, 16 or 24) of row `r` stands, from the grid's first byte (R121). -/
def gridByteOffset (r g : Nat) : Nat := sourceRowOffset r + g

/-- Bit `b` of a byte, most significant first: `(byte >> (7 - b)) & 1`, as true or false (R125, R126). -/
def gridBit (byte : Byte) (b : Nat) : Bool := ((byte >>> (7 - b)) &&& 1#8) == 1#8

/-- The cell at row `r`, column `c` of a grid read from its 192 bytes: column `g + b` of group `g` is bit `7 - b` of the
group's byte (R120). The bytes are always 192 where this is used, so the default is never taken. -/
def gridCell (bs : List Byte) (r c : Nat) : Bool :=
  gridBit (bs.getD (gridByteOffset r (8 * (c / 8))) 0#8) (c % 8)

/-- The source's `decodeGrid`: all 48 x 32 cells (R120, R124). -/
def decodeGridBytes (bs : List Byte) : Grid :=
  Vector.ofFn fun r : Fin 48 => Vector.ofFn fun c : Fin 32 => gridCell bs r c

/-- `DECODE_GRID` (R120): decode the 192 bytes at `OFFSET` into `GRIDOUT`. `LEN` is not read. -/
def execDecodeGrid (s : State) : Host.Outcome State Fault Refusal :=
  s.runCommand [(s.blockTooLong, .outOfRange), (s.windowBeyond gridBytes, .outOfRange)]
    s.baseOffset gridBytes
    (fun bs t => t.setGrid (decodeGridBytes bs))

end Sys2Proof.Machine
end

