-- ==== Sys2Proof/Machine/SpriteUnpacker.lean ====
section
/-! DEFINITION. The bit-plane sprite unpacker and `DECODE_SPRITE` (spec 42_sprite_unpacker.md R140 to R149). -/

namespace Sys2Proof.Machine

/-- `idx[k] = ((byte >> k) & 1) | (((byte >> (k + 4)) & 1) << 1)` (R141): plane 0 is bit `k`, plane 1 bit `k + 4`. -/
def pixelIndex (byte : Byte) (k : Nat) : Pixel :=
  (((byte >>> k) &&& 1#8) ||| (((byte >>> (k + 4)) &&& 1#8) <<< 1)).setWidth 2

/-- The pixel at row `r`, column `c` of a tile: byte `2r + (c div 4)`, in the reverse order 3, 2, 1, 0 (R140, R145). The
bytes are always 24 where this is used, so the default is never taken. -/
def spritePixel (bs : List Byte) (r c : Nat) : Pixel :=
  pixelIndex (bs.getD (2 * r + c / 4) 0#8) (3 - c % 4)

/-- The source's sprite `decode`: all 12 x 8 pixels (R140, R144). -/
def decodeSpriteBytes (bs : List Byte) : Sprite :=
  Vector.ofFn fun r : Fin 12 => Vector.ofFn fun c : Fin 8 => spritePixel bs r c

/-- `DECODE_SPRITE` (R140): unpack the 24-byte tile at `OFFSET` into `SPROUT`, the checks in the order of R212. -/
def execDecodeSprite (s : State) : Host.Outcome State Fault Refusal :=
  s.runCommand
    [(s.blockTooLong, .outOfRange), (s.tileLengthWrong, .malformedSprite),
      (s.windowBeyond spriteBytes, .outOfRange)]
    s.baseOffset spriteBytes
    (fun bs t => t.setSprite (decodeSpriteBytes bs))

end Sys2Proof.Machine
end

