-- ==== Sys2Proof/Machine/Dispatch.lean ====
section
/-! DEFINITION. One arm per command: what the engine does with a decoded command (spec 30_encoding.md R81). -/

namespace Sys2Proof.Machine

/-- Execute one command as one indivisible step (10_state.md R20). -/
def exec (i : Instr) (s : State) : Host.Outcome State Fault Refusal :=
  match i with
  | .unscramble => Sys2Proof.Machine.execUnscramble s
  | .decodeGrid => Sys2Proof.Machine.execDecodeGrid s
  | .decodeSprite => Sys2Proof.Machine.execDecodeSprite s

end Sys2Proof.Machine
end

