-- ==== Sys2Proof/Machine/HostAccess.lean ====
section
/-! DEFINITION. What each host access does, the readout registers, and the issue of a command by a write to `CMD`
(spec 45_host_access.md R160 to R165; 10_state.md R25, R31, R34; 30_encoding.md R80 to R82). -/

namespace Sys2Proof.Machine

/-- `R[GRIDROW[r]] = sum over c of GRIDOUT[r][c] << (31 - c)` (R31): column 0 is bit 31. -/
def State.gridRowWord (s : State) (r : Fin 48) : Word :=
  BitVec.ofNat 32
    ((List.finRange 32).map fun c : Fin 32 => (s.gridOut[r][c]).toNat <<< (31 - c.val)).sum

/-- `R[SPRROW[r]] = sum over c of SPROUT[r][c] << (14 - 2*c)` (R34): pixel 0 is bits [15:14]; bits [31:16] are 0. -/
def State.sprRowWord (s : State) (r : Fin 12) : Word :=
  BitVec.ofNat 32
    ((List.finRange 8).map fun c : Fin 8 => (s.sprOut[r][c]).toNat <<< (14 - 2 * c.val)).sum

/-- The value of a register for a host read (R165). No read changes anything (R65). R165 states the fault `UNINIT_READ` of
`GRIDROW` and `SPRROW` while `GRID_V` or `SPR_V` is clear. -/
def State.readReg (s : State) : Reg → Except Fault Word
  | .cmd => .ok 0#32
  | .status => .ok s.status
  | .blklen => .ok s.blklen
  | .offset => .ok s.offset
  | .len => .ok s.len
  | .gridRow r => if s.gridV then .ok (s.gridRowWord r) else .error .uninitRead
  | .sprRow r => if s.sprV then .ok (s.sprRowWord r) else .error .uninitRead
  | .reserved _ => .ok 0#32

/-- A host write of `w` to `CMD` issues the command `w` encodes (R25, R80); any other word fails with `ILLEGAL_COMMAND`,
reading no operand and no byte (R82). The command completes here, within the step of its access (R20, R241). -/
def issueCommand (w : Word) (s : State) : Host.Outcome State Fault Refusal :=
  match decode w with
  | .ok i => exec i s
  | .error _ => s.raise .illegalCommand

/-- A register write (R164): `BLKLEN`, `OFFSET` and `LEN` take the value unchecked, `CMD` issues a command, and writes to
every other register are ignored. -/
def State.writeReg (s : State) (w : Word) : Reg → Host.Outcome State Fault Refusal
  | .cmd => issueCommand w s
  | .status => .next s
  | .blklen => .next (s.setBlklen w)
  | .offset => .next (s.setOffset w)
  | .len => .next (s.setLen w)
  | .gridRow _ => .next s
  | .sprRow _ => .next s
  | .reserved _ => .next s

/-- `wrb a, v` (R161), refused where it names nothing (R163). Where both the address and the value name nothing, the refusal
names the address: DESIGN CHOICE (log entry 6), safe. -/
def performWrb (a v : Nat) (s : State) : Host.Outcome State Fault Refusal :=
  if s.cfg.bufSize ≤ a then .refused .badAddress
  else if 255 < v then .refused .badByte
  else .next (s.setBuf (Memory.write s.buf a (BitVec.ofNat 8 v)))

/-- `rdb a` (R162), refused where it names nothing (R163). R162 states the fault `UNINIT_READ` of an unwritten byte. -/
def performRdb (a : Nat) (s : State) : Host.Outcome State Fault Refusal :=
  if s.cfg.bufSize ≤ a then .refused .badAddress
  else
    match Memory.read s.buf a with
    | none => .fault .uninitRead
    | some b => .next (s.giveHost (.byte b))

/-- `wrr i, v` (R164), refused where it names nothing (R163). Where both the index and the value name nothing, the refusal
names the index: DESIGN CHOICE (log entry 6), safe. -/
def performWrr (i v : Nat) (s : State) : Host.Outcome State Fault Refusal :=
  match Reg.ofIndex i with
  | none => .refused .badIndex
  | some r => if 2 ^ 32 ≤ v then .refused .badValue else s.writeReg (BitVec.ofNat 32 v) r

/-- `rdr i` (R165), refused where it names nothing (R163). -/
def performRdr (i : Nat) (s : State) : Host.Outcome State Fault Refusal :=
  match Reg.ofIndex i with
  | none => .refused .badIndex
  | some r =>
    match s.readReg r with
    | .ok w => .next (s.giveHost (.word w))
    | .error f => .fault f

/-- One host access, whole and in order (R66, R160). -/
def performAccess (a : Access) (s : State) : Host.Outcome State Fault Refusal :=
  match a with
  | .wrb a v => performWrb a v s
  | .rdb a => performRdb a s
  | .wrr i v => performWrr i v s
  | .rdr i => performRdr i s

/-- Several host accesses, one after another (R69, R160). A stop of one is the stop of all. -/
def performAll : List Access → State → Host.Outcome State Fault Refusal
  | [], s => .next s
  | a :: rest, s =>
    match performAccess a s with
    | .next t => performAll rest t
    | .fault f => .fault f
    | .refused r => .refused r

/-- What happens next: a host access or the platform's reset (R230). -/
def performEvent (e : Event) (s : State) : Host.Outcome State Fault Refusal :=
  match e with
  | .access a => performAccess a s
  | .reset => .next s.applyReset

/-- Between host accesses the block is idle with all state held (R221): with nothing pending, nothing changes. -/
def State.idle (s : State) : Host.Outcome State Fault Refusal := .next s

end Sys2Proof.Machine
end

