-- ==== Sys2Proof/Machine/Step.lean ====
section
/-! DEFINITION. One step: the next host access (or platform reset) in the host's issue order, performed whole
(spec 10_state.md R20, R39; 20_memory.md R66, R69; 60_exceptions.md R221). -/

namespace Sys2Proof.Machine

/-- Perform what happens next; with nothing pending the block idles. The model has no time: a command, from the write to `CMD`
to its `STATUS`, is one step, and no state stands between (R20, R66, R240, R241). -/
def step (s : State) : Host.Outcome State Fault Refusal :=
  match s.nextEvent with
  | none => s.idle
  | some (e, t) => performEvent e t

/-- `s` with the host's very next access a write to `CMD` of the low `nbits` bits of `w`: the way a program
comes to run on this hardware (R25, R39; log entry 1). -/
def State.withFetchWord (s : State) (nbits w : Nat) : State := s.withCommand (w % 2 ^ nbits)

end Sys2Proof.Machine
end

