-- ==== Sys2Proof/Machine/HostSyntax.lean ====
section
/-! DEFINITION. The notation of host programs, its pseudo-instructions, and the disassembly of command words
(spec 30_encoding.md R83, R85, R86). Notation only: no step depends on it. What R85 leaves
open about spacing and number forms: DESIGN CHOICE (log entry 8), safe. -/

namespace Sys2Proof.Machine

/-- The mnemonic of a command (R81). -/
def mnemonic : Instr → String
  | .unscramble => "UNSCRAMBLE"
  | .decodeGrid => "DECODE_GRID"
  | .decodeSprite => "DECODE_SPRITE"

/-- One hexadecimal digit, upper case. -/
def hexDigit (n : Nat) : Char :=
  "0123456789ABCDEF".toList.getD (n % 16) '0'

/-- The low `digits` hexadecimal digits of a number, most significant first. -/
def hexDigits : Nat → Nat → List Char
  | 0, _ => []
  | digits + 1, n => hexDigits digits (n / 16) ++ [hexDigit n]

/-- The text a disassembler prints (R83): the mnemonic of a legal word, else `.word 0xHHHHHHHH`. -/
def disassemble (w : Word) : List Char :=
  match decode w with
  | .ok i => (mnemonic i).toList
  | .error _ => ".word 0x".toList ++ hexDigits 8 w.toNat

/-- One line of a host program: the host accesses of R85 and the pseudo-instructions of R86. -/
inductive HostLine where
  | wrb (a v : Nat)
  | rdb (a : Nat)
  /-- a register by its index -/
  | wrr (i v : Nat)
  | rdr (i : Nat)
  /-- a command by its word -/
  | cmd (w : Nat)
  | load (a : Nat) (bytes : List Nat)
  | fill (a n v : Nat)
  | block (n : Nat)
  | unscramble
  | grid (off : Nat)
  | sprite (off : Nat)
  | status
deriving DecidableEq, Repr

/-- The command word of a mnemonic, as the value of a register write (R81). -/
def commandValue (i : Instr) : Nat := (encode i).toNat

/-- `wrb a, b0` / `wrb a+1, b1` / ... for the bytes of a list (R86 `load`). -/
def loadAccesses (a : Nat) : List Nat → List Access
  | [] => []
  | b :: bs => .wrb a b :: loadAccesses (a + 1) bs

/-- The host accesses a line stands for (R85, R86). -/
def HostLine.expand : HostLine → List Access
  | .wrb a v => [.wrb a v]
  | .rdb a => [.rdb a]
  | .wrr i v => [.wrr i v]
  | .rdr i => [.rdr i]
  | .cmd w => [.wrr Reg.cmd.index w]
  | .load a bytes => loadAccesses a bytes
  | .fill a n v => loadAccesses a (List.replicate n v)
  | .block n => [.wrr Reg.blklen.index n]
  | .unscramble => [.wrr Reg.cmd.index (commandValue .unscramble)]
  | .grid off => [.wrr Reg.offset.index off, .wrr Reg.cmd.index (commandValue .decodeGrid)]
  | .sprite off =>
    [.wrr Reg.offset.index off, .wrr Reg.len.index 24, .wrr Reg.cmd.index (commandValue .decodeSprite)]
  | .status => [.rdr Reg.status.index]

/-- The accesses of a whole host program, in order (R85). -/
def expandLines (ls : List HostLine) : List Access := ls.flatMap HostLine.expand

/-- The value of a digit in a base up to 16, either case. -/
def digitValue (base : Nat) (c : Char) : Option Nat :=
  let n := c.toNat
  let d :=
    if 48 ≤ n ∧ n ≤ 57 then n - 48
    else if 65 ≤ n ∧ n ≤ 70 then n - 55
    else if 97 ≤ n ∧ n ≤ 102 then n - 87
    else 16
  if d < base then some d else none

/-- The number a run of digits writes in a base, continued from `acc`. -/
def digitsValue (base acc : Nat) : List Char → Option Nat
  | [] => some acc
  | c :: cs =>
    match digitValue base c with
    | some d => digitsValue base (acc * base + d) cs
    | none => none

/-- A number of R85: decimal, or hexadecimal after `0x`. -/
def parseNumber : List Char → Option Nat
  | [] => none
  | '0' :: 'x' :: c :: cs => digitsValue 16 0 (c :: cs)
  | c :: cs => digitsValue 10 0 (c :: cs)

/-- The lexical elements of a line: words, and the comma. -/
inductive Token where
  | word (cs : List Char)
  | comma
deriving DecidableEq, Repr

/-- Close the word read so far, if any. -/
def endWord (acc : List Char) (rest : List Token) : List Token :=
  if acc = [] then rest else .word acc :: rest

/-- Cut a line into elements; `;` starts a comment (R85). `acc` is the word being read. -/
def tokens (acc : List Char) : List Char → List Token
  | [] => endWord acc []
  | c :: cs =>
    if c = ';' then endWord acc []
    else if c = ',' then endWord acc (.comma :: tokens [] cs)
    else if c = ' ' ∨ c = '\t' ∨ c = '\r' then endWord acc (tokens [] cs)
    else tokens (acc ++ [c]) cs

/-- The index of a register given by a name of R21 (without its row number), or by an index. -/
def plainRegister (cs : List Char) : Option Nat :=
  if cs = "CMD".toList then some Reg.cmd.index
  else if cs = "STATUS".toList then some Reg.status.index
  else if cs = "BLKLEN".toList then some Reg.blklen.index
  else if cs = "OFFSET".toList then some Reg.offset.index
  else if cs = "LEN".toList then some Reg.len.index
  else parseNumber cs

/-- The index of `GRIDROW r` or `SPRROW r`, `r` decimal (R85). -/
def rowRegister (cs row : List Char) : Option Nat :=
  match row with
  | [] => none
  | d :: ds =>
    match digitsValue 10 0 (d :: ds) with
    | none => none
    | some r =>
      if cs = "GRIDROW".toList then
        if h : r < 48 then some (Reg.gridRow ⟨r, h⟩).index else none
      else if cs = "SPRROW".toList then
        if h : r < 12 then some (Reg.sprRow ⟨r, h⟩).index else none
      else none

/-- The word of a command given by its mnemonic, or as a raw word (R85). -/
def commandWord (cs : List Char) : Option Nat :=
  if cs = (mnemonic .unscramble).toList then some (commandValue .unscramble)
  else if cs = (mnemonic .decodeGrid).toList then some (commandValue .decodeGrid)
  else if cs = (mnemonic .decodeSprite).toList then some (commandValue .decodeSprite)
  else parseNumber cs

/-- The numbers of `, b1, b2, ...`. -/
def commaNumbers : List Token → Option (List Nat)
  | [] => some []
  | .comma :: .word cs :: rest =>
    match parseNumber cs, commaNumbers rest with
    | some n, some ns => some (n :: ns)
    | _, _ => none
  | _ => none

/-- One host line from its elements, the first of them the name of the line's form (R85, R86). -/
def lineOf (name : List Char) (args : List Token) : Option HostLine :=
  match args with
  | [] =>
    if name = "unscramble".toList then some .unscramble
    else if name = "status".toList then some .status
    else none
  | [.word x] =>
    if name = "rdb".toList then (parseNumber x).map .rdb
    else if name = "rdr".toList then (plainRegister x).map .rdr
    else if name = "cmd".toList then (commandWord x).map .cmd
    else if name = "block".toList then (parseNumber x).map .block
    else if name = "grid".toList then (parseNumber x).map .grid
    else if name = "sprite".toList then (parseNumber x).map .sprite
    else none
  | [.word x, .word row] => if name = "rdr".toList then (rowRegister x row).map .rdr else none
  | [.word x, .word row, .comma, .word v] =>
    if name = "wrr".toList then
      match rowRegister x row, parseNumber v with
      | some i, some n => some (.wrr i n)
      | _, _ => none
    else none
  | .word x :: .comma :: rest =>
    match commaNumbers (.comma :: rest) with
    | none => none
    | some ns =>
      if name = "wrr".toList then
        match plainRegister x, ns with
        | some i, [v] => some (.wrr i v)
        | _, _ => none
      else
        match parseNumber x with
        | none => none
        | some a =>
          if name = "wrb".toList then
            match ns with
            | [v] => some (.wrb a v)
            | _ => none
          else if name = "load".toList then some (.load a ns)
          else if name = "fill".toList then
            match ns with
            | [n, v] => some (.fill a n v)
            | _ => none
          else none
  | _ => none

/-- One line of text: no host line where it is blank or a comment, `none` where it is none of the forms of R85 and R86. -/
def parseLine (cs : List Char) : Option (List HostLine) :=
  match tokens [] cs with
  | [] => some []
  | .word name :: args => (lineOf name args).map fun l => [l]
  | .comma :: _ => none

/-- The lines of a text. `acc` is the line being read. -/
def textLines (acc : List Char) : List Char → List (List Char)
  | [] => [acc]
  | c :: cs => if c = '\n' then acc :: textLines [] cs else textLines (acc ++ [c]) cs

/-- All lines parsed, in order. -/
def parseLines : List (List Char) → Option (List HostLine)
  | [] => some []
  | l :: ls =>
    match parseLine l, parseLines ls with
    | some h, some hs => some (h ++ hs)
    | _, _ => none

/-- The host accesses of a host program's text (R85, R86). -/
def assemble (text : String) : Option (List Access) :=
  (parseLines (textLines [] text.toList)).map expandLines

end Sys2Proof.Machine
end

