-- ==== Sys2Proof/Machine/Client.lean ====
section
/-! DEFINITION. The client software outside the block, as plain functions on bytes and as host programs
(spec 49_client_software.md R180 to R202; 70_reset_and_hazards.md R232 to R234; 42_sprite_unpacker.md R147). It uses the
same byte functions as the three units, so that what a unit leaves can be compared with what the client expects. -/

namespace Sys2Proof.Machine

/-- The software's error kinds (R200). -/
inductive ClientError where
  | malformedLevel
  | malformedSprite
  | malformedSpriteSheet
  | unknownTileCode
  | blockNotFound
deriving DecidableEq, Repr

/-- Which raw block a client is decoding (R180). -/
inductive BlockKind where
  | level
  | sheet
deriving DecidableEq, Repr

/-- The client's error for an error code of the DJD, by the block it was decoding (R200). -/
def clientErrorOf (kind : BlockKind) (code : ErrorCode) : Option ClientError :=
  match code, kind with
  | .success, _ => none
  | .illegalCommand, _ => none
  | .malformedSprite, _ => some .malformedSprite
  | .outOfRange, .level => some .malformedLevel
  | .outOfRange, .sheet => some .malformedSpriteSheet

/-- A coordinate pair `(x, y)` = `(column, row)` (R9). -/
abbrev Coord := Byte × Byte

/-- The sentinel 0xFF of an unused slot. -/
def sentinel : Byte := 0xFF#8

/-- Record a value under a key; a later record at the same key overwrites the earlier one (R187). -/
def record {κ α : Type} [DecidableEq κ] (k : κ) (v : α) : List (κ × α) → List (κ × α)
  | [] => [(k, v)]
  | e :: es => if e.1 = k then (k, v) :: es else e :: record k v es

/-- The value recorded under a key. -/
def recorded {κ α : Type} [DecidableEq κ] (k : κ) : List (κ × α) → Option α
  | [] => none
  | e :: es => if e.1 = k then some e.2 else recorded k es

/-- `byte[a]`: a byte of the unscrambled block. Every use lies below the length the client tested (R193). -/
def blockByte (blk : List Byte) (a : Nat) : Byte := blk.getD a 0#8

/-- `n` bytes of a block from `base` on. -/
def blockSlice (blk : List Byte) (base n : Nat) : List Byte := (blk.drop base).take n

/-- One slot of the lookup table, recorded unless its code is the sentinel (R181). -/
def lookupSlot (blk : List Byte) (table : List (Coord × Byte)) (i : Nat) : List (Coord × Byte) :=
  if blockByte blk (0x40 + i) = sentinel then table
  else record (blockByte blk i, blockByte blk (0x20 + i)) (blockByte blk (0x40 + i)) table

/-- The lookup table: slots 1 to 31 (R181, R187). -/
def lookupTable (blk : List Byte) : List (Coord × Byte) := (List.range' 1 31).foldl (lookupSlot blk) []

/-- A door: its id 1 to 20 and its raw orientation byte (R183, R184). -/
structure Door where
  id : Nat
  orientation : Byte
deriving DecidableEq, Repr

/-- One door slot, recorded only if all three bytes differ from the sentinel (R183). -/
def doorSlot (blk : List Byte) (table : List (Coord × Door)) (i : Nat) : List (Coord × Door) :=
  if blockByte blk (0x60 + i) = sentinel ∨ blockByte blk (0x75 + i) = sentinel ∨
      blockByte blk (0x8A + i) = sentinel then table
  else record (blockByte blk (0x60 + i), blockByte blk (0x75 + i)) ⟨i, blockByte blk (0x8A + i)⟩ table

/-- The doors: slots 1 to 20 (R183, R187). -/
def doorTable (blk : List Byte) : List (Coord × Door) := (List.range' 1 20).foldl (doorSlot blk) []

/-- A door is vertical exactly when its orientation byte is 0x1D (R184). -/
def Door.vertical (d : Door) : Bool := d.orientation == 0x1D#8

/-- One key slot, recorded only if both bytes differ from the sentinel (R185). -/
def keySlot (blk : List Byte) (table : List (Coord × Nat)) (i : Nat) : List (Coord × Nat) :=
  if blockByte blk (0xA0 + i) = sentinel ∨ blockByte blk (0xB5 + i) = sentinel then table
  else record (blockByte blk (0xA0 + i), blockByte blk (0xB5 + i)) i table

/-- The keys: slots 1 to 20 (R185, R187). -/
def keyTable (blk : List Byte) : List (Coord × Nat) := (List.range' 1 20).foldl (keySlot blk) []

/-- One trapdoor, a member of a set with no filtering (R186). -/
def trapdoorSlot (blk : List Byte) (set : List Coord) (i : Nat) : List Coord :=
  let p := (blockByte blk (0xD0 + i), blockByte blk (0xD8 + i))
  if p ∈ set then set else set ++ [p]

/-- The trapdoors: slots 0 to 7, as a list with no repeats (R186, C3). -/
def trapdoorSet (blk : List Byte) : List Coord := (List.range 8).foldl (trapdoorSlot blk) []

/-- The categories of tile codes (R182). -/
inductive TileCategory where
  | treasure
  | food
  | crucifix
  | teleport
  | exit
  | drainer
  | boots
  | armour
  | potion
  | weapons
  | dagger
deriving DecidableEq, Repr

/-- Tile classification, a step after decoding (R182). -/
def classifyTile (code : Byte) : Except ClientError TileCategory :=
  match code.toNat with
  | 0x28 => .ok .treasure
  | 0x29 => .ok .food
  | 0x2A => .ok .crucifix
  | 0x2B => .ok .teleport
  | 0x51 => .ok .exit
  | 0x53 => .ok .drainer
  | 0x5F => .ok .boots
  | 0x60 => .ok .armour
  | 0x61 => .ok .potion
  | 0x62 => .ok .weapons
  | 0x63 => .ok .dagger
  | _ => .error .unknownTileCode

/-- The `Level` entity (R195). -/
structure Level where
  lookup : List (Coord × Byte)
  doors : List (Coord × Door)
  keys : List (Coord × Nat)
  trapdoors : List Coord
  solidGrid : Grid
  collectableGrid : Grid
  wallSprite : Sprite
deriving DecidableEq, Repr

/-- The solid grid's first byte (R188). -/
def solidBase : Nat := 0xE0

/-- The collectable grid's first byte (R188). -/
def collectableBase : Nat := 0x1B0

/-- The least length of a level block: the highest offset used is 0x26F (R193, C1). -/
def levelMinimum : Nat := 0x270

/-- Where the wall sprite's tile starts in a block of a given length (R192). -/
def wallBase (length : Nat) : Nat := length - 48

/-- The level of an unscrambled block long enough for every offset used (R181 to R192). -/
def levelOf (blk : List Byte) : Level where
  lookup := lookupTable blk
  doors := doorTable blk
  keys := keyTable blk
  trapdoors := trapdoorSet blk
  solidGrid := decodeGridBytes (blockSlice blk solidBase gridBytes)
  collectableGrid := decodeGridBytes (blockSlice blk collectableBase gridBytes)
  wallSprite := decodeSpriteBytes (blockSlice blk (wallBase blk.length) spriteBytes)

/-- Decode a raw (scrambled) level block: the length test, then the descrambler, then the level (R180, R193). -/
def decodeLevel (raw : List Byte) : Except ClientError Level :=
  if raw.length < levelMinimum then .error .malformedLevel else .ok (levelOf (descramble raw))

/-- `isSolid(row, col)` (R189): 1 is impassable. -/
def Level.isSolid (l : Level) (row : Fin 48) (col : Fin 32) : Bool := l.solidGrid[row][col]

/-- `isCollectable(row, col)` (R190): the collectable grid is inverted, 0 is occupied. -/
def Level.isCollectable (l : Level) (row : Fin 48) (col : Fin 32) : Bool := !(l.collectableGrid[row][col])

/-- The sprite-sheet catalog `SHEET_TABLE` (R197, R199, D31): base offsets with their ordered names. It is an open
parameter, an argument of what uses it. -/
abbrev SheetTable := List (Nat × List String)

/-- The slots of one entry: name at position `s` is at `B + 48 * s` (R197). -/
def entrySlots (base : Nat) : List String → List (String × Nat)
  | [] => []
  | n :: ns => (n, base) :: entrySlots (base + 48) ns

/-- Every named slot of the catalog with its offset, in the table's order (R197). -/
def sheetSlots (table : SheetTable) : List (String × Nat) := table.flatMap fun e => entrySlots e.1 e.2

/-- The least length of a sheet block: the greatest slot offset + 24 (R198). DEDUCED (log entry 7), unsafe: 0 where
the table names no slot. -/
def sheetMinimum (table : SheetTable) : Nat := ((sheetSlots table).map fun e => e.2 + spriteBytes).foldr max 0

/-- Decode a sprite-sheet block, which is not scrambled (R180, R197, R198). DEDUCED (log entry 7), unsafe: a name
that stands twice keeps its last sprite, as coordinates do. -/
def decodeSheet (table : SheetTable) (sheet : List Byte) : Except ClientError (List (String × Sprite)) :=
  if sheet.length < sheetMinimum table then .error .malformedSpriteSheet
  else
    .ok ((sheetSlots table).foldl
      (fun sprites e => record e.1 (decodeSpriteBytes (blockSlice sheet e.2 spriteBytes)) sprites) [])

/-- What the container supplies: named raw blocks (R180). -/
abbrev Container := List (String × List Byte)

/-- A block by its name, or `BlockNotFound` (R180, R200). Where the container supplies two blocks of one name, the first in the
list is used: DESIGN CHOICE (log entry 7), unsafe. -/
def namedBlock (c : Container) (name : String) : Except ClientError (List Byte) :=
  match recorded name c with
  | some blk => .ok blk
  | none => .error .blockNotFound

/-- The name of the sprite-sheet block (R180). -/
def sheetName : String := "Dunjunz"

/-- The name of level `n`'s block, `n` = 1 to 25 (R180). -/
def levelName (n : Nat) : String := "Level" ++ toString n

/-- Decode level `n` of a container. There are levels 1 to 25 only (R180): any other number
has no block, DEDUCED (log entry 7), unsafe. -/
def decodeLevelOf (c : Container) (n : Nat) : Except ClientError Level :=
  if 1 ≤ n ∧ n ≤ 25 then (namedBlock c (levelName n)).bind decodeLevel else .error .blockNotFound

/-- Decode the sprite sheet of a container. -/
def decodeSheetOf (c : Container) (table : SheetTable) : Except ClientError (List (String × Sprite)) :=
  (namedBlock c sheetName).bind (decodeSheet table)

/-- The colours of the palette (R147), applied by the renderer. -/
inductive Colour where
  | black
  | red
  | green
  | white
deriving DecidableEq, Repr

/-- The fixed 4-entry palette (R147). -/
def paletteColour (p : Pixel) : Colour :=
  match p.toNat with
  | 0 => .black
  | 1 => .red
  | 2 => .green
  | _ => .white

/-- Load a raw block at `BUF[0]` and set `BLKLEN` to its length (R232). The bytes are written in ascending order and `BLKLEN`
last, where R232 lets any order be: DESIGN CHOICE (log entry 12), unsafe. -/
def loadProgram (raw : List Byte) : List HostLine :=
  [.load 0 (raw.map BitVec.toNat), .block raw.length]

/-- Read `GRIDROW 0` to `GRIDROW 47` (R191). -/
def readGrid : List HostLine := (List.finRange 48).map fun r => .rdr (Reg.gridRow r).index

/-- Read `SPRROW 0` to `SPRROW 11` (R233, R234). -/
def readSprite : List HostLine := (List.finRange 12).map fun r => .rdr (Reg.sprRow r).index

/-- The bytes of the record tables the level decoder reads (R181, R183, R185, R186); the other offsets below 0xE0 are not read
(R194). They are read slot by slot, each once: DEDUCED (log entry 7), unsafe. -/
def recordOffsets : List Nat :=
  (List.range' 1 31).flatMap (fun i => [i, 0x20 + i, 0x40 + i]) ++
    (List.range' 1 20).flatMap (fun i => [0x60 + i, 0x75 + i, 0x8A + i]) ++
    (List.range' 1 20).flatMap (fun i => [0xA0 + i, 0xB5 + i]) ++
    (List.range 8).flatMap (fun i => [0xD0 + i, 0xD8 + i])

/-- What a client does with the DJD: the lines of its host program, in order, and the error it ends with, if any. -/
structure ClientRun where
  lines : List HostLine
  error : Option ClientError
deriving DecidableEq, Repr

/-- A client loads its block (R232), then makes its length test: where the block is too short it ends with its error,
otherwise it goes on with the lines of its decoding (R233, R234). -/
def clientRun (blk : List Byte) (minimum : Nat) (failure : ClientError) (decoding : List HostLine) : ClientRun :=
  if blk.length < minimum then { lines := loadProgram blk, error := some failure }
  else { lines := loadProgram blk ++ decoding, error := none }

/-- Decode a level with the DJD, in the order of R233. R233 lists `UNSCRAMBLE` before the length test, and R193 and R233 forbid
every command where the test fails: a short block is loaded and no command is issued, DEDUCED (log entry 10), unsafe. Steps (4) to (7) come in the order R233 lists
them, and no `STATUS` is read between a command and its result, though R166 and R236 ask the host to read it: DESIGN CHOICE
(log entry 12), unsafe. -/
def levelProgram (raw : List Byte) : ClientRun :=
  clientRun raw levelMinimum .malformedLevel
    ([.unscramble] ++ recordOffsets.map .rdb ++
      [.grid solidBase] ++ readGrid ++ [.grid collectableBase] ++ readGrid ++
      [.sprite (wallBase raw.length)] ++ readSprite)

/-- Decode a sprite sheet with the DJD, in the order of R234: load, length test, and each sprite read out before the next; no
`UNSCRAMBLE`. No `STATUS` is read between a command and its result, though R166 and R236 ask the host to read it: DESIGN
CHOICE (log entry 12), unsafe. -/
def sheetProgram (table : SheetTable) (sheet : List Byte) : ClientRun :=
  clientRun sheet (sheetMinimum table) .malformedSpriteSheet
    ((sheetSlots table).flatMap fun e => .sprite e.2 :: readSprite)

end Sys2Proof.Machine
end

