-- ==== Sys2Proof/Machine/System.lean ====
section
/-! DEFINITION. Several DJD instances, each with its own state and its own host, sharing nothing
(spec 60_exceptions.md R222; 20_memory.md R70). -/

namespace Sys2Proof.Machine

/-- Any number of instances (`NUM_INSTANCES`, R5). The position is the model's name for an instance; the instances
cannot see it. Which instance moves is the argument of `System.stepAt`, so every interleaving is one of its runs: DESIGN
CHOICE (log entry 11), safe. Where the instance that moves ends in a fault or a refusal, so does the whole system's step, though
the spec ends only that host's program (R163, R216) and is silent on the others: DESIGN CHOICE (log entry 11), safe. -/
abbrev System := List State

/-- Instance `k` performs what happens next to it; no other instance takes part. Where there is no instance `k`, nothing
happens. -/
def System.stepAt (k : Nat) (sys : System) : Host.Outcome System Fault Refusal :=
  match sys[k]? with
  | none => .next sys
  | some s =>
    match step s with
    | .next t => .next (sys.set k t)
    | .fault f => .fault f
    | .refused r => .refused r

end Sys2Proof.Machine
end

