-- ==== Sys2Proof/WellFormed.lean ====
section
/-! DEFINITION. Which commands and which host accesses name something the DJD has (spec 30_encoding.md R80, R81;
45_host_access.md R163). -/

namespace Sys2Proof

/-- A command has no operand (R80), so each of the three is well formed. -/
def Instr.wellFormed : Instr → Bool
  | .unscramble => true
  | .decodeGrid => true
  | .decodeSprite => true

/-- A host access that names something (the complement of R163), for a buffer of `bufSize` bytes. -/
def Machine.Access.wellFormed (bufSize : Nat) : Machine.Access → Bool
  | .wrb a v => decide (a < bufSize) && decide (v ≤ 255)
  | .rdb a => decide (a < bufSize)
  | .wrr i v => decide (i ≤ 0xFF) && decide (v < 2 ^ 32)
  | .rdr i => decide (i ≤ 0xFF)

end Sys2Proof
end

