-- ==== Sys2Proof/Safety.lean ====
section
/-! DEFINITION. What counts as a safe step, in the terms of the statements: the error a command ends with, the bytes it
reads, when a step stops, and the invariant of the state (spec 10_state.md R26, R38; 20_memory.md R62; 45_host_access.md
R163, R166; 60_exceptions.md R210 to R216). -/

namespace Sys2Proof.Machine

/-- The error a command ends with, from the table of R211 in the order of R212; `success` where no cause applies. -/
def commandError : Instr → State → ErrorCode
  | .unscramble, s => if s.cfg.bufSize < s.blklen.toNat then .outOfRange else .success
  | .decodeGrid, s =>
    if s.cfg.bufSize < s.blklen.toNat ∨ s.blklen.toNat < s.offset.toNat + 192 then .outOfRange else .success
  | .decodeSprite, s =>
    if s.cfg.bufSize < s.blklen.toNat then .outOfRange
    else if s.len.toNat ≠ 24 then .malformedSprite
    else if s.blklen.toNat < s.offset.toNat + 24 then .outOfRange
    else .success

/-- The first address a command reads and how many bytes it reads (R62). -/
def commandWindow : Instr → State → Nat × Nat
  | .unscramble, s => (0, s.blklen.toNat)
  | .decodeGrid, s => (s.offset.toNat, 192)
  | .decodeSprite, s => (s.offset.toNat, 24)

/-- Every one of the `n` bytes from `base` on has its written mark set (R38). -/
abbrev Memory.written (m : Memory) (base n : Nat) : Prop := ∀ k, k < n → Memory.read m (base + k) ≠ none

/-- Every byte the command reads has been written (the host's duty of R166). -/
abbrev commandWritten (i : Instr) (s : State) : Prop :=
  Memory.written s.buf (commandWindow i s).1 (commandWindow i s).2

/-- The command succeeds: no error applies and every byte it reads has been written. -/
abbrev commandReady (i : Instr) (s : State) : Prop := commandError i s = .success ∧ commandWritten i s

/-- The word written to `CMD` does not end in `UNINIT_READ`: it is illegal, fails, or finds its bytes written. -/
def issueSafe (w : Word) (s : State) : Prop :=
  ∀ i, decode w = .ok i → commandError i s = .success → commandWritten i s

/-- The access does not stop the model: it names something (R163) and reads nothing unwritten (R38, R166). -/
def accessSafe (s : State) : Access → Prop
  | .wrb a v => a < s.cfg.bufSize ∧ v ≤ 255
  | .rdb a => a < s.cfg.bufSize ∧ Memory.read s.buf a ≠ none
  | .wrr i v => i ≤ 0xFF ∧ v < 2 ^ 32 ∧ (i = 0 → issueSafe (BitVec.ofNat 32 v) s)
  | .rdr i =>
    i ≤ 0xFF ∧ (0x10 ≤ i ∧ i < 0x40 → s.gridV = true) ∧ (0x40 ≤ i ∧ i < 0x4C → s.sprV = true)

/-- What happens next does not stop the model. -/
def eventSafe (s : State) : Event → Prop
  | .access a => accessSafe s a
  | .reset => True

/-- The values `STATUS` can hold (R26, R27, R210): reset, success, and the three errors. -/
abbrev legalStatus (w : Word) : Prop := w ∈ [0x00#32, 0x01#32, 0x13#32, 0x23#32, 0x33#32]

/-- The invariant of the state: a legal `BUF_SIZE` (R5), `BUF` in canonical form and inside its address space (R60), a
legal `STATUS` (R26, R210), and a result array is valid only after some command completed (R27, R38). -/
abbrev State.Inv (s : State) : Prop :=
  s.cfg.Valid ∧ Memory.wf s.buf ∧ (∀ c ∈ s.buf, c.1 < s.cfg.bufSize) ∧ legalStatus s.status ∧
    (s.gridV = true ∨ s.sprV = true → statusDone s.status = true)

/-- What of a state a host could ever learn: a result array counts only while its mark is set (R38, R165). -/
def State.visible (s : State) : State :=
  { s with
    gridOut := if s.gridV then s.gridOut else State.reset.gridOut
    sprOut := if s.sprV then s.sprOut else State.reset.sprOut }

end Sys2Proof.Machine
end

