-- ==== Sys2Proof/Certificates/Slice0/Obligations.lean ====
section
/-! DEFINITION. The statements about the DJD, from the numbered rules of spec/. -/

open Sys2Proof Sys2Proof.Machine

/-! ### Command words -/

/-- R81. The decoder accepts exactly the three words of the opcode map, each as its own command; decoding an encoded
command gives it back; and the word written to `CMD` selects the operation. -/
def Obligations.DecodeAcceptsExactlyTheThreeWords : Prop :=
  (∀ (w : Word) (i : Instr), decode w = .ok i ↔ w &&& 0xFFFFFFFF#32 = encode i) ∧
  (∀ i : Instr, i.wellFormed = true → decode (encode i) = .ok i) ∧
  (∀ w : Word, (∃ i, decode w = .ok i) ↔
    rsvField w = 0#28 ∧ (opField w = 0x1#4 ∨ opField w = 0x2#4 ∨ opField w = 0x3#4)) ∧
  encode .unscramble = 0x00000001#32 ∧ encode .decodeGrid = 0x00000002#32 ∧
  encode .decodeSprite = 0x00000003#32 ∧
  (∀ (i : Instr) (s : State), issueCommand (encode i) s = exec i s)

/-- R82. Every word with `RSV` not 0, or with another `OP` than 1, 2, 3, fails with `ILLEGAL_COMMAND` in every state,
whatever the operands and the buffer hold, and writes nothing but `STATUS`. -/
def Obligations.IllegalWordWritesOnlyStatus : Prop :=
  ∀ (w : Word) (s : State),
    w.extractLsb' 4 28 ≠ 0#28 ∨ w.extractLsb' 0 4 ∉ [0x1#4, 0x2#4, 0x3#4] →
    issueCommand w s = .next { s with status := 0x00000013#32 }

/-- R83. Decoding is total, and the disassembler prints a legal word as its mnemonic and any other word as
`.word 0x` and the eight hexadecimal digits of the word. -/
def Obligations.EveryWordDecodesOrIsRejectedAndPrints : Prop :=
  (mnemonic .unscramble = "UNSCRAMBLE" ∧ mnemonic .decodeGrid = "DECODE_GRID" ∧
    mnemonic .decodeSprite = "DECODE_SPRITE") ∧
  ∀ w : Word,
    (∃ i, w = encode i ∧ decode w = .ok i ∧ disassemble w = (mnemonic i).toList) ∨
    ((∀ i, w ≠ encode i) ∧ (∃ e, decode w = .error e) ∧
      ∃ ds, disassemble w = ".word 0x".toList ++ ds ∧ ds.length = 8 ∧ digitsValue 16 0 ds = some w.toNat)

/-- Vectors D-1 to D-10 of 95_test_vectors.md, as table words. -/
def Obligations.TableWordsDecode : Prop :=
  decodeTableWord 32 0x00000001 = some .unscramble ∧ decodeTableWord 32 0x00000002 = some .decodeGrid ∧
  decodeTableWord 32 0x00000003 = some .decodeSprite ∧ decodeTableWord 32 0x00000000 = none ∧
  decodeTableWord 32 0x00000004 = none ∧ decodeTableWord 32 0x0000000F = none ∧
  decodeTableWord 32 0x00000010 = none ∧ decodeTableWord 32 0x00000011 = none ∧
  decodeTableWord 32 0x80000001 = none ∧ decodeTableWord 32 0xFFFFFFFF = none

/-! ### Steps -/

/-- R20, R25. A step whose next access writes `v` to `CMD` issues the command of the word `v`: it runs `exec` of the decoded
command on the state with that access taken off the queue, or fails with `ILLEGAL_COMMAND`; and `CMD` reads 0. That the
host's accesses stand in a queue of the state is the model's form (log entry 1). -/
def Obligations.StepRunsTheDecodedCommand : Prop :=
  (∀ (s : State) (rest : List Event) (v : Nat), s.pending = .access (.wrr 0x00 v) :: rest → v < 2 ^ 32 →
    (∀ i, decode (BitVec.ofNat 32 v) = .ok i → step s = exec i (s.setPending rest)) ∧
    (∀ e, decode (BitVec.ofNat 32 v) = .error e → step s = (s.setPending rest).raise .illegalCommand)) ∧
  (∀ (s : State) (i : Instr), step (s.withFetchWord 32 (encode i).toNat) = exec i s) ∧
  (∀ s : State, s.readReg .cmd = .ok 0#32)

/-- R69, R160, R221. Each step performs exactly the next event, in the host's issue order, on the state without it, leaves
the ones after it, and changes no parameter; at most one value is given back to the host; with nothing pending the block
idles. The queue and the list of values given back are the model's form of the host (log entry 1); that a platform reset too
leaves the later events and the values given back is the model's choice (log entry 3). -/
def Obligations.StepsTakeEventsInOrder : Prop :=
  (∀ (s : State) (e : Event) (rest : List Event), s.pending = e :: rest →
    step s = performEvent e { s with pending := rest }) ∧
  (∀ (s t : State) (e : Event) (rest : List Event), s.pending = e :: rest → step s = .next t →
    t.pending = rest ∧ t.cfg = s.cfg ∧ ∃ vs, t.reads = s.reads ++ vs ∧ vs.length ≤ 1) ∧
  (∀ s : State, s.pending = [] → step s = .next s)

/-! ### Reset and the invariant -/

/-- R40, R21. The values after reset, for every `BUF_SIZE`: the registers are 0, `CMD` and the reserved indices read 0,
no byte of `BUF` is written, the marks are clear, and the readout registers fault. -/
def Obligations.ResetLeavesTheStatedValues : Prop :=
  State.reset = State.resetFor { bufSize := 65536 } ∧
  ∀ cfg : Config,
    let s := State.resetFor cfg
    s.status = 0#32 ∧ statusDone s.status = false ∧ statusErr s.status = false ∧ statusEcode s.status = 0#4 ∧
    s.blklen = 0#32 ∧ s.offset = 0#32 ∧ s.len = 0#32 ∧
    s.readReg .cmd = .ok 0#32 ∧ (∀ i, s.readReg (.reserved i) = .ok 0#32) ∧
    (∀ a, Memory.read s.buf a = none) ∧ s.gridV = false ∧ s.sprV = false ∧
    (∀ r, s.readReg (.gridRow r) = .error .uninitRead) ∧ (∀ r, s.readReg (.sprRow r) = .error .uninitRead)

/-- The invariant holds after reset, for every legal `BUF_SIZE`. -/
def Obligations.ResetMeetsTheInvariant : Prop :=
  State.reset.Inv ∧ ∀ cfg : Config, cfg.Valid → (State.resetFor cfg).Inv

/-- Every step keeps the invariant, from every state that meets it: a legal `BUF_SIZE`, `BUF` in canonical form and inside
its address space, a legal `STATUS`, and no valid result array before a command completed. -/
def Obligations.EveryStepKeepsTheInvariant : Prop :=
  ∀ s t : State, s.Inv → step s = .next t → t.Inv

/-- R230. The platform's reset puts every piece of the block's state at its reset value, from any state. That the
accesses still pending and the values already read stay with the host is the model's choice (log entry 3); so are the zeros
that `GRIDOUT` and `SPROUT`, which R40 and R230 call unspecified, hold behind their clear marks (log entry 4). -/
def Obligations.ResetEventLeavesTheResetState : Prop :=
  ∀ (s : State) (rest : List Event), s.pending = .reset :: rest →
    step s = .next { State.resetFor s.cfg with pending := rest, reads := s.reads }

/-! ### Errors -/

/-- R27. Every command, successful or not, ends by writing `(ecode << 4) | (err << 1) | 1` to `STATUS`, where the code is
that of this command alone, whatever `STATUS` held before. -/
def Obligations.EveryCommandRecordsItsOutcome : Prop :=
  (∀ (w : Word) (s t : State), issueCommand w s = .next t →
    ∃ code : ErrorCode,
      (code = match decode w with | .ok i => commandError i s | .error _ => .illegalCommand) ∧
      t.status = BitVec.ofNat 32
        ((code.bits.toNat <<< 4) ||| ((if code = .success then 0 else 1) <<< 1) ||| 1)) ∧
  ErrorCode.bits .success = 0#4 ∧
  (∀ (w : Word) (s t : State) (x : Word), issueCommand w s = .next t → issueCommand w (s.setStatus x) = .next t)

/-- R26, R210. After every command `DONE` is 1 and the reserved bits are 0; a failed command has `ERR` = 1 and one of the codes
1 to 3, a successful one `ERR` = 0 and `ECODE` = 0. -/
def Obligations.StatusReportsSuccessOrOneOfThreeCodes : Prop :=
  ∀ (w : Word) (s t : State), issueCommand w s = .next t →
    statusDone t.status = true ∧ t.status.extractLsb' 2 2 = 0#2 ∧ t.status.extractLsb' 8 24 = 0#24 ∧
    ((statusErr t.status = true ∧ statusEcode t.status ∈ [1#4, 2#4, 3#4]) ∨
      (statusErr t.status = false ∧ statusEcode t.status = 0#4))

/-- R211, R212. Which error each command ends with: an illegal word before anything else, then `BLKLEN > BUF_SIZE`, then
`LEN != 24` for `DECODE_SPRITE`, then a window beyond `BLKLEN`, each whether or not the bytes are written; where none
applies a command that completes has succeeded. -/
def Obligations.ErrorsInPriorityOrder : Prop :=
  ∀ s : State,
    (∀ w e, decode w = .error e → issueCommand w s = .next { s with status := 0x13#32 }) ∧
    (∀ i, s.cfg.bufSize < s.blklen.toNat → exec i s = .next { s with status := 0x33#32 }) ∧
    (s.blklen.toNat ≤ s.cfg.bufSize → s.len.toNat ≠ 24 →
      exec .decodeSprite s = .next { s with status := 0x23#32 }) ∧
    (s.blklen.toNat ≤ s.cfg.bufSize → s.len.toNat = 24 → s.blklen.toNat < s.offset.toNat + 24 →
      exec .decodeSprite s = .next { s with status := 0x33#32 }) ∧
    (s.blklen.toNat ≤ s.cfg.bufSize → s.blklen.toNat < s.offset.toNat + 192 →
      exec .decodeGrid s = .next { s with status := 0x33#32 }) ∧
    (∀ t, s.blklen.toNat ≤ s.cfg.bufSize → exec .unscramble s = .next t → t.status = 0x01#32) ∧
    (∀ t, s.blklen.toNat ≤ s.cfg.bufSize → s.offset.toNat + 192 ≤ s.blklen.toNat →
      exec .decodeGrid s = .next t → t.status = 0x01#32) ∧
    (∀ t, s.blklen.toNat ≤ s.cfg.bufSize → s.len.toNat = 24 → s.offset.toNat + 24 ≤ s.blklen.toNat →
      exec .decodeSprite s = .next t → t.status = 0x01#32)

/-- R213. A command that ends with `ERR` = 1 has written nothing but `STATUS`. -/
def Obligations.FailedCommandWritesOnlyStatus : Prop :=
  ∀ (w : Word) (s t : State), issueCommand w s = .next t → statusErr t.status = true →
    t = { s with status := t.status }

/-- R215. Reissuing a failed command with the same registers and bytes fails again with the same code. -/
def Obligations.ReissuedFailureFailsAlike : Prop :=
  ∀ (w : Word) (s t : State), issueCommand w s = .next t → statusErr t.status = true →
    issueCommand w t = .next t

/-- R38, R216. A command ends in `UNINIT_READ` exactly where no error applies and a byte it reads is unwritten; no
command is refused. -/
def Obligations.CommandFaultsExactlyOnUnwrittenBytes : Prop :=
  (∀ (i : Instr) (s : State), exec i s = .fault .uninitRead ↔
    commandError i s = .success ∧
      ∃ k, k < (commandWindow i s).2 ∧ Memory.read s.buf ((commandWindow i s).1 + k) = none) ∧
  (∀ (i : Instr) (s : State) (r : Refusal), exec i s ≠ .refused r)

/-! ### UNSCRAMBLE -/

/-- R100. `UNSCRAMBLE`: its word, its error, its fault, and its completion: every byte of the block is XORed with its
position modulo 256, every other byte stays, `STATUS` is 0x01, and nothing else changes. -/
def Obligations.UnscrambleXorsEveryByteOfTheBlock : Prop :=
  encode .unscramble = 0x00000001#32 ∧
  ∀ s : State,
    (s.cfg.bufSize < s.blklen.toNat → exec .unscramble s = .next { s with status := 0x33#32 }) ∧
    (s.blklen.toNat ≤ s.cfg.bufSize → (∃ k, k < s.blklen.toNat ∧ Memory.read s.buf k = none) →
      exec .unscramble s = .fault .uninitRead) ∧
    (s.blklen.toNat ≤ s.cfg.bufSize → (∀ k, k < s.blklen.toNat → Memory.read s.buf k ≠ none) →
      ∃ m, exec .unscramble s = .next { s with buf := m, status := 0x01#32 } ∧
        (∀ k b, k < s.blklen.toNat → Memory.read s.buf k = some b →
          Memory.read m k = some (b ^^^ BitVec.ofNat 8 (k % 256))) ∧
        (∀ a, s.blklen.toNat ≤ a → Memory.read m a = Memory.read s.buf a))

/-- R101. A second `UNSCRAMBLE` with the same `BLKLEN`, after no write to the block, leaves the block as it was before the
first, whatever else changed in between. -/
def Obligations.UnscrambleTwiceRestoresTheBlock : Prop :=
  ∀ s t s2 : State, exec .unscramble s = .next t → s2.cfg = s.cfg → s2.blklen = s.blklen →
    (∀ a, a < s.blklen.toNat → Memory.read s2.buf a = Memory.read t.buf a) →
    ∃ u, exec .unscramble s2 = .next u ∧
      ∀ a, a < s.blklen.toNat → Memory.read u.buf a = Memory.read s.buf a

/-- R102. The key of a byte is its position modulo 256, whatever the bytes; the 8-bit counter that starts at 0 gives the
same result. -/
def Obligations.KeystreamCounterMatchesPosition : Prop :=
  (∀ (bs : List Byte) (k : Nat) (b : Byte), bs[k]? = some b →
    (descramble bs)[k]? = some (b ^^^ BitVec.ofNat 8 (k % 256))) ∧
  (∀ bs : List Byte, descrambleCounter 0#8 bs = descramble bs)

/-- R103. `UNSCRAMBLE` keeps `BLKLEN` and every written mark, writes only the block's bytes, and its result is a function
of the block's bytes alone. -/
def Obligations.UnscramblePreservesLength : Prop :=
  (∀ s t : State, exec .unscramble s = .next t →
    t.blklen = s.blklen ∧ (∀ a, Memory.read t.buf a = none ↔ Memory.read s.buf a = none) ∧
      (∀ a, s.blklen.toNat ≤ a → Memory.read t.buf a = Memory.read s.buf a)) ∧
  (∀ s t s2 t2 : State, exec .unscramble s = .next t → exec .unscramble s2 = .next t2 →
    t.status = 0x01#32 → t2.status = 0x01#32 → s2.blklen = s.blklen →
    (∀ a, a < s.blklen.toNat → Memory.read s2.buf a = Memory.read s.buf a) →
    ∀ a, a < s.blklen.toNat → Memory.read t2.buf a = Memory.read t.buf a)

/-- R235, R238. An even number of descramblings gives the raw bytes again and an odd number the descrambled ones;
descrambling a prefix and then the whole block leaves the prefix as it was. -/
def Obligations.DescrambleOnceOverTheWholeBlock : Prop :=
  (∀ (n : Nat) (bs : List Byte), (descramble^[n]) bs = if n % 2 = 0 then bs else descramble bs) ∧
  (∀ (m : Nat) (bs : List Byte), m ≤ bs.length →
    (descramble (descramble (bs.take m) ++ bs.drop m)).take m = bs.take m)

/-- R239. A byte the host writes after `UNSCRAMBLE` stands as written; a byte of the block it writes before is descrambled. -/
def Obligations.HostWritesAreStoredAsWritten : Prop :=
  ∀ (s : State) (a v : Nat), a < s.cfg.bufSize → v ≤ 255 →
    (∀ t, exec .unscramble s = .next t →
      ∃ u, performAccess (.wrb a v) t = .next u ∧ Memory.read u.buf a = some (BitVec.ofNat 8 v)) ∧
    (∀ u t, performAccess (.wrb a v) s = .next u → exec .unscramble u = .next t → t.status = 0x01#32 →
      a < s.blklen.toNat → Memory.read t.buf a = some (BitVec.ofNat 8 v ^^^ BitVec.ofNat 8 (a % 256)))

/-! ### DECODE_GRID -/

/-- R120, R121, R123 to R126. `DECODE_GRID`: its word, its errors, its fault, and its completion: the cell at row r, column
c is bit `7 - c mod 8` of the byte at `OFFSET + (r div 8) * 32 + r mod 8 + 8 * (c div 8)`, as read and not inverted, for
every cell; `GRID_V` is set, `STATUS` is 0x01, and nothing else changes, no byte of `BUF` among it. -/
def Obligations.DecodeGridReadsEveryCellFromItsByte : Prop :=
  encode .decodeGrid = 0x00000002#32 ∧
  ∀ s : State,
    (s.cfg.bufSize < s.blklen.toNat ∨ s.blklen.toNat < s.offset.toNat + 192 →
      exec .decodeGrid s = .next { s with status := 0x33#32 }) ∧
    (s.blklen.toNat ≤ s.cfg.bufSize → s.offset.toNat + 192 ≤ s.blklen.toNat →
      (∃ k, k < 192 ∧ Memory.read s.buf (s.offset.toNat + k) = none) →
      exec .decodeGrid s = .fault .uninitRead) ∧
    (s.blklen.toNat ≤ s.cfg.bufSize → s.offset.toNat + 192 ≤ s.blklen.toNat →
      (∀ k, k < 192 → Memory.read s.buf (s.offset.toNat + k) ≠ none) →
      ∃ g : Grid, exec .decodeGrid s = .next { s with gridOut := g, gridV := true, status := 0x01#32 } ∧
        ∀ (r : Fin 48) (c : Fin 32) (b : Byte),
          Memory.read s.buf (s.offset.toNat + (r.val / 8 * 32 + r.val % 8) + 8 * (c.val / 8)) = some b →
          g[r][c] = b.getLsbD (7 - c.val % 8))

/-- R122. The footprint: the byte of row r, group g is at `t = 32 * (r div 8) + g + r mod 8`, each of the 192 offsets is
the byte of exactly the row and group the rule gives, and bit `7 - b` of it is column `g + b`. -/
def Obligations.GridFootprintIsABijection : Prop :=
  (∀ t : Fin 192, gridByteOffset (8 * (t.val / 32) + t.val % 32 % 8) (8 * (t.val % 32 / 8)) = t.val) ∧
  (∀ (r : Fin 48) (q : Fin 4), gridByteOffset r (8 * q.val) = 32 * (r.val / 8) + 8 * q.val + r.val % 8 ∧
    gridByteOffset r (8 * q.val) < 192 ∧
    8 * (gridByteOffset r (8 * q.val) / 32) + gridByteOffset r (8 * q.val) % 32 % 8 = r.val ∧
    gridByteOffset r (8 * q.val) % 32 / 8 = q.val) ∧
  (∀ (bs : List Byte) (r : Fin 48) (q : Fin 4) (b : Fin 8),
    gridCell bs r.val (8 * q.val + b.val) =
      (bs.getD (gridByteOffset r.val (8 * q.val)) 0#8).getLsbD (7 - b.val)) ∧
  gridByteOffset 0 0 = 0 ∧ gridByteOffset 47 24 = 0xBF

/-- R127. Two successful `DECODE_GRID` commands with the same `OFFSET` and the same 192 bytes give the same `GRIDOUT`,
whatever the other bytes and registers hold. -/
def Obligations.GridDependsOnlyOnItsFootprint : Prop :=
  ∀ s t s2 t2 : State, exec .decodeGrid s = .next t → exec .decodeGrid s2 = .next t2 →
    t.status = 0x01#32 → t2.status = 0x01#32 → s2.offset = s.offset →
    (∀ k, k < 192 → Memory.read s2.buf (s.offset.toNat + k) = Memory.read s.buf (s.offset.toNat + k)) →
    t2.gridOut = t.gridOut

/-- R31. `GRIDROW[r]` is the sum of the row's bits, column c at weight `2^(31 - c)`; so column 0 is bit 31 and column 31 bit
0; and after a decode it is the row's four source bytes in group order, the first most significant. -/
def Obligations.GridRowPacksMostSignificantFirst : Prop :=
  (∀ (s : State) (r : Fin 48),
    (s.gridRowWord r).toNat = ∑ c : Fin 32, (s.gridOut[r][c]).toNat * 2 ^ (31 - c.val)) ∧
  (∀ (s : State) (r : Fin 48) (c : Fin 32), (s.gridRowWord r).getLsbD (31 - c.val) = s.gridOut[r][c]) ∧
  (∀ (s : State) (bs : List Byte) (r : Fin 48), s.gridOut = decodeGridBytes bs →
    s.gridRowWord r =
      bs.getD (gridByteOffset r 0) 0#8 ++ bs.getD (gridByteOffset r 8) 0#8 ++
        bs.getD (gridByteOffset r 16) 0#8 ++ bs.getD (gridByteOffset r 24) 0#8)

/-! ### DECODE_SPRITE -/

/-- R140, R142 to R145. `DECODE_SPRITE`: its word, its errors in order, its fault, and its completion: the pixel at row r,
column c comes from the tile's byte `2r + c div 4`, its low bit from bit `3 - c mod 4` and its high bit from bit
`7 - c mod 4`, for every pixel; `SPR_V` is set, `STATUS` is 0x01, and nothing else changes, no byte of `BUF` among it. -/
def Obligations.DecodeSpriteReadsEveryPixelFromItsByte : Prop :=
  encode .decodeSprite = 0x00000003#32 ∧
  ∀ s : State,
    (s.cfg.bufSize < s.blklen.toNat → exec .decodeSprite s = .next { s with status := 0x33#32 }) ∧
    (s.blklen.toNat ≤ s.cfg.bufSize → s.len.toNat ≠ 24 →
      exec .decodeSprite s = .next { s with status := 0x23#32 }) ∧
    (s.blklen.toNat ≤ s.cfg.bufSize → s.len.toNat = 24 → s.blklen.toNat < s.offset.toNat + 24 →
      exec .decodeSprite s = .next { s with status := 0x33#32 }) ∧
    (s.blklen.toNat ≤ s.cfg.bufSize → s.len.toNat = 24 → s.offset.toNat + 24 ≤ s.blklen.toNat →
      (∃ k, k < 24 ∧ Memory.read s.buf (s.offset.toNat + k) = none) →
      exec .decodeSprite s = .fault .uninitRead) ∧
    (s.blklen.toNat ≤ s.cfg.bufSize → s.len.toNat = 24 → s.offset.toNat + 24 ≤ s.blklen.toNat →
      (∀ k, k < 24 → Memory.read s.buf (s.offset.toNat + k) ≠ none) →
      ∃ p : Sprite, exec .decodeSprite s = .next { s with sprOut := p, sprV := true, status := 0x01#32 } ∧
        ∀ (r : Fin 12) (c : Fin 8) (b : Byte),
          Memory.read s.buf (s.offset.toNat + 2 * r.val + c.val / 4) = some b →
          (p[r][c]).getLsbD 0 = b.getLsbD (3 - c.val % 4) ∧
          (p[r][c]).getLsbD 1 = b.getLsbD (7 - c.val % 4))

/-- R141. The pixel index of a byte at k: bit k is its low bit and bit k + 4 its high bit, so it is 0, 1, 2 or 3 as neither,
only the low, only the high or both are set. -/
def Obligations.PixelIndexJoinsTheTwoPlanes : Prop :=
  ∀ (v : Byte) (k : Fin 4),
    (pixelIndex v k).toNat = (v.getLsbD k.val).toNat + 2 * (v.getLsbD (k.val + 4)).toNat

/-- R148. An all-0x00 tile decodes to pixels all 0, an all-0xFF tile to pixels all 3. -/
def Obligations.UniformTilesDecodeUniformly : Prop :=
  ∀ s : State, s.blklen.toNat ≤ s.cfg.bufSize → s.len = 24#32 → s.offset.toNat + 24 ≤ s.blklen.toNat →
    ((∀ k, k < 24 → Memory.read s.buf (s.offset.toNat + k) = some 0x00#8) →
      ∃ t, exec .decodeSprite s = .next t ∧ ∀ (r : Fin 12) (c : Fin 8), t.sprOut[r][c] = 0#2) ∧
    ((∀ k, k < 24 → Memory.read s.buf (s.offset.toNat + k) = some 0xFF#8) →
      ∃ t, exec .decodeSprite s = .next t ∧ ∀ (r : Fin 12) (c : Fin 8), t.sprOut[r][c] = 3#2)

/-- R34. `SPRROW[r]` is the sum of the row's pixels, pixel c at weight `2^(14 - 2c)`, so pixel c is bits
`[15 - 2c : 14 - 2c]` and bits [31:16] are 0. -/
def Obligations.SpriteRowPacksMostSignificantFirst : Prop :=
  (∀ (s : State) (r : Fin 12),
    (s.sprRowWord r).toNat = ∑ c : Fin 8, (s.sprOut[r][c]).toNat * 2 ^ (14 - 2 * c.val)) ∧
  (∀ (s : State) (r : Fin 12) (c : Fin 8), (s.sprRowWord r).extractLsb' (14 - 2 * c.val) 2 = s.sprOut[r][c]) ∧
  (∀ (s : State) (r : Fin 12), (s.sprRowWord r).extractLsb' 16 16 = 0#16)

/-! ### What commands depend on and what they leave -/

/-- R2. A command is a function of its operand registers and the bytes it reads: where two states agree on these, the
commands end alike, with the same `STATUS` and the same results. -/
def Obligations.CommandIsAFunctionOfItsInputs : Prop :=
  ∀ (i : Instr) (s s2 : State), s2.cfg = s.cfg → s2.blklen = s.blklen → s2.offset = s.offset → s2.len = s.len →
    (∀ k, k < (commandWindow i s).2 →
      Memory.read s2.buf ((commandWindow i s).1 + k) = Memory.read s.buf ((commandWindow i s).1 + k)) →
    (∀ f, exec i s = .fault f → exec i s2 = .fault f) ∧
    (∀ t, exec i s = .next t → ∃ t2, exec i s2 = .next t2 ∧ t2.status = t.status ∧
      (t.status = 0x01#32 →
        (i = .unscramble → ∀ a, a < s.blklen.toNat → Memory.read t2.buf a = Memory.read t.buf a) ∧
        (i = .decodeGrid → t2.gridOut = t.gridOut ∧ t2.gridV = t.gridV) ∧
        (i = .decodeSprite → t2.sprOut = t.sprOut ∧ t2.sprV = t.sprV)))

/-- R22 to R24, R28, R62. The frame of every command that answers a next state: no command writes an operand register, a
parameter or the host's side; only `UNSCRAMBLE` writes `BUF`, and there only the block; only `DECODE_GRID` writes
`GRIDOUT`, only `DECODE_SPRITE` writes `SPROUT`. -/
def Obligations.CommandFrames : Prop :=
  ∀ (i : Instr) (s t : State), exec i s = .next t →
    t.cfg = s.cfg ∧ t.blklen = s.blklen ∧ t.offset = s.offset ∧ t.len = s.len ∧
    t.pending = s.pending ∧ t.reads = s.reads ∧
    (i ≠ .unscramble → t.buf = s.buf) ∧
    (∀ a, s.blklen.toNat ≤ a → Memory.read t.buf a = Memory.read s.buf a) ∧
    (i ≠ .decodeGrid → t.gridOut = s.gridOut ∧ t.gridV = s.gridV) ∧
    (i ≠ .decodeSprite → t.sprOut = s.sprOut ∧ t.sprV = s.sprV)

/-- R84. `UNSCRAMBLE` ignores `OFFSET` and `LEN`, and `DECODE_GRID` ignores `LEN`: with other values there they end alike,
and leave those values. -/
def Obligations.UnusedOperandsAreIgnored : Prop :=
  ∀ (s t : State) (o l : Word),
    (exec .unscramble s = .next t →
      exec .unscramble { s with offset := o, len := l } = .next { t with offset := o, len := l }) ∧
    (exec .decodeGrid s = .next t →
      exec .decodeGrid { s with len := l } = .next { t with len := l })

/-! ### Host accesses -/

/-- R161. `wrb a, v` writes byte v to `BUF[a]`, marks it written, and changes nothing else. -/
def Obligations.HostByteWriteStoresOneByte : Prop :=
  ∀ (s : State) (a v : Nat), a < s.cfg.bufSize → v ≤ 255 →
    ∃ m, performAccess (.wrb a v) s = .next { s with buf := m } ∧
      Memory.read m a = some (BitVec.ofNat 8 v) ∧ ∀ b, b ≠ a → Memory.read m b = Memory.read s.buf b

/-- R162. `rdb a` gives back the byte that stands at `BUF[a]` and changes nothing of the block, or ends in `UNINIT_READ` where
nothing has written it. The values given back stand in `reads`, the model's form (log entry 1). -/
def Obligations.HostByteReadGivesTheByte : Prop :=
  ∀ (s : State) (a : Nat), a < s.cfg.bufSize →
    (∀ b, Memory.read s.buf a = some b →
      performAccess (.rdb a) s = .next { s with reads := s.reads ++ [.byte b] }) ∧
    (Memory.read s.buf a = none → performAccess (.rdb a) s = .fault .uninitRead)

/-- R163. An access is refused exactly where it names nothing the DJD has: an address at or beyond `BUF_SIZE`, a byte above
255, an index above 0xFF, or a register value of 2^32 or more. -/
def Obligations.RefusedExactlyWhereNothingIsNamed : Prop :=
  ∀ (s : State) (a : Access),
    ((∃ r, performAccess a s = .refused r) ↔
      match a with
      | .wrb x v => s.cfg.bufSize ≤ x ∨ 255 < v
      | .rdb x => s.cfg.bufSize ≤ x
      | .wrr i v => 0xFF < i ∨ 2 ^ 32 ≤ v
      | .rdr i => 0xFF < i) ∧
    ((∃ r, performAccess a s = .refused r) ↔ a.wellFormed s.cfg.bufSize = false)

/-- R164. What a register write does, for every index 0x00 to 0xFF and every 32-bit value: it issues a command, writes one
operand register unchecked, or is ignored. -/
def Obligations.RegisterWritesFollowTheTable : Prop :=
  ∀ (s : State) (i v : Nat), v < 2 ^ 32 →
    (i = 0x00 → performAccess (.wrr i v) s = issueCommand (BitVec.ofNat 32 v) s) ∧
    (i = 0x02 → performAccess (.wrr i v) s = .next { s with blklen := BitVec.ofNat 32 v }) ∧
    (i = 0x03 → performAccess (.wrr i v) s = .next { s with offset := BitVec.ofNat 32 v }) ∧
    (i = 0x04 → performAccess (.wrr i v) s = .next { s with len := BitVec.ofNat 32 v }) ∧
    (i = 0x01 ∨ (0x05 ≤ i ∧ i ≤ 0xFF) → performAccess (.wrr i v) s = .next s)

/-- R165. What a register read gives back, for every index 0x00 to 0xFF; no read changes any state of the block. The values
given back stand in `reads`, the model's form (log entry 1). -/
def Obligations.RegisterReadsFollowTheTable : Prop :=
  ∀ (s : State) (i : Nat),
    let gives (w : Word) := performAccess (.rdr i) s = .next { s with reads := s.reads ++ [.word w] }
    (i = 0x00 → gives 0#32) ∧ (i = 0x01 → gives s.status) ∧ (i = 0x02 → gives s.blklen) ∧
    (i = 0x03 → gives s.offset) ∧ (i = 0x04 → gives s.len) ∧
    (∀ r : Fin 48, i = 0x10 + r.val →
      (s.gridV = true → gives (s.gridRowWord r)) ∧
      (s.gridV = false → performAccess (.rdr i) s = .fault .uninitRead)) ∧
    (∀ r : Fin 12, i = 0x40 + r.val →
      (s.sprV = true → gives (s.sprRowWord r)) ∧
      (s.sprV = false → performAccess (.rdr i) s = .fault .uninitRead)) ∧
    ((0x05 ≤ i ∧ i ≤ 0x0F) ∨ (0x4C ≤ i ∧ i ≤ 0xFF) → gives 0#32)

/-! ### Whole-machine rules -/

/-- R38, R163, R166. A step answers a next state exactly where its event names something and reads nothing unwritten: the
host's duties are enough and are needed. -/
def Obligations.StepCompletesExactlyWhereTheDutiesHold : Prop :=
  ∀ (s : State) (e : Event) (rest : List Event), s.pending = e :: rest →
    ((∃ t, step s = .next t) ↔ eventSafe s e)

/-- R26. Only a command or a reset changes `STATUS`, and only a reset clears `DONE`. -/
def Obligations.StatusChangesOnlyByCommands : Prop :=
  ∀ s t : State, step s = .next t →
    (t.status ≠ s.status →
      ∃ rest, s.pending = .reset :: rest ∨ ∃ v, s.pending = .access (.wrr 0x00 v) :: rest) ∧
    (statusDone s.status = true → statusDone t.status = false → ∃ rest, s.pending = .reset :: rest)

/-- R65, R69, R162. A byte of `BUF` changes only by a host write to it, by an `UNSCRAMBLE` whose block holds it, or by a
reset; a host read changes nothing but what the host knows. -/
def Obligations.BytesChangeOnlyByWrites : Prop :=
  (∀ (s t : State) (a : Nat), step s = .next t → Memory.read t.buf a ≠ Memory.read s.buf a →
    ∃ rest, s.pending = .reset :: rest ∨ (∃ v, s.pending = .access (.wrb a v) :: rest) ∨
      (∃ v, s.pending = .access (.wrr 0x00 v) :: rest ∧ decode (BitVec.ofNat 32 v) = .ok .unscramble ∧
        a < s.blklen.toNat)) ∧
  (∀ (s t : State) (rest : List Event) (x : Nat),
    s.pending = .access (.rdb x) :: rest ∨ s.pending = .access (.rdr x) :: rest → step s = .next t →
    t = { s with pending := rest, reads := t.reads })

/-- R30, R33. `GRIDOUT` and its mark change only by a successful `DECODE_GRID` or a reset, `SPROUT` and its mark only by a
successful `DECODE_SPRITE` or a reset. -/
def Obligations.ResultsChangeOnlyBySuccessfulDecodes : Prop :=
  ∀ s t : State, step s = .next t →
    ((t.gridOut ≠ s.gridOut ∨ t.gridV ≠ s.gridV) →
      ∃ rest, s.pending = .reset :: rest ∨
        ∃ v, s.pending = .access (.wrr 0x00 v) :: rest ∧ decode (BitVec.ofNat 32 v) = .ok .decodeGrid ∧
          t.gridV = true ∧ t.status = 0x01#32) ∧
    ((t.sprOut ≠ s.sprOut ∨ t.sprV ≠ s.sprV) →
      ∃ rest, s.pending = .reset :: rest ∨
        ∃ v, s.pending = .access (.wrr 0x00 v) :: rest ∧ decode (BitVec.ofNat 32 v) = .ok .decodeSprite ∧
          t.sprV = true ∧ t.status = 0x01#32)

/-- R38. No step but a reset clears a written mark: a written byte stays written, a valid result array stays valid; and a
byte's mark is set only by a host write to it. -/
def Obligations.MarksAreClearedOnlyByReset : Prop :=
  ∀ s t : State, step s = .next t → (∀ rest, s.pending ≠ .reset :: rest) →
    (∀ a, Memory.read s.buf a ≠ none → Memory.read t.buf a ≠ none) ∧
    (s.gridV = true → t.gridV = true) ∧ (s.sprV = true → t.sprV = true) ∧
    (∀ a, Memory.read s.buf a = none → Memory.read t.buf a ≠ none →
      ∃ v rest, s.pending = .access (.wrb a v) :: rest)

/-- R38, R165. What the model stores in `GRIDOUT` and `SPROUT` while their marks are clear (log entry 4) is never seen: two
states that differ only there step alike, and differ only there afterwards. -/
def Obligations.UnwrittenResultsAreNeverSeen : Prop :=
  ∀ s s2 : State, s2.visible = s.visible →
    (∀ t, step s = .next t → ∃ t2, step s2 = .next t2 ∧ t2.visible = t.visible) ∧
    (∀ f, step s = .fault f → step s2 = .fault f) ∧
    (∀ r, step s = .refused r → step s2 = .refused r)

/-- R222, R70. Steps of two instances commute, and a step of one leaves every other as it was. -/
def Obligations.InstancesAreIndependent : Prop :=
  ∀ (sys a b : System) (j k : Nat), j ≠ k → System.stepAt j sys = .next a → System.stepAt k a = .next b →
    (∀ m, m ≠ j → a[m]? = sys[m]?) ∧
    ∃ c, System.stepAt k sys = .next c ∧ System.stepAt j c = .next b

/-! ### Notation and client software -/

/-- R86. The pseudo-instructions stand for the accesses the table gives. -/
def Obligations.PseudoInstructionsExpand : Prop :=
  (∀ (a : Nat) (bytes : List Nat), (HostLine.load a bytes).expand =
    (List.range bytes.length).map fun k => .wrb (a + k) (bytes.getD k 0)) ∧
  (∀ a n v : Nat, (HostLine.fill a n v).expand = (List.range n).map fun k => .wrb (a + k) v) ∧
  (∀ n : Nat, (HostLine.block n).expand = [.wrr 0x02 n]) ∧
  HostLine.unscramble.expand = [.wrr 0x00 0x00000001] ∧
  (∀ off : Nat, (HostLine.grid off).expand = [.wrr 0x03 off, .wrr 0x00 0x00000002]) ∧
  (∀ off : Nat, (HostLine.sprite off).expand = [.wrr 0x03 off, .wrr 0x04 24, .wrr 0x00 0x00000003]) ∧
  HostLine.status.expand = [.rdr 0x01]

/-- R193. The level decoder fails with `MalformedLevel`, and issues no command, exactly where the block is shorter than
0x270 bytes. -/
def Obligations.LevelFailsExactlyBelowItsMinimum : Prop :=
  ∀ raw : List Byte,
    (decodeLevel raw = .error .malformedLevel ↔ raw.length < 0x270) ∧
    (0x270 ≤ raw.length → ∃ l, decodeLevel raw = .ok l) ∧
    ((levelProgram raw).error = some .malformedLevel ↔ raw.length < 0x270) ∧
    (raw.length < 0x270 → ∀ v, .wrr 0x00 v ∉ expandLines (levelProgram raw).lines)

/-- R181, R183, R185, R187. What the lookup, door and key tables hold at a coordinate: the last slot, in increasing index,
that is not filtered and names it. -/
def Obligations.ClientTablesKeepTheLastUnfilteredSlot : Prop :=
  ∀ (blk : List Byte) (x y : Byte),
    (∀ t : Byte, recorded (x, y) (lookupTable blk) = some t ↔
      ∃ i, 1 ≤ i ∧ i ≤ 31 ∧ blockByte blk i = x ∧ blockByte blk (0x20 + i) = y ∧
        blockByte blk (0x40 + i) = t ∧ t ≠ 0xFF#8 ∧
        ∀ j, i < j → j ≤ 31 → blockByte blk j = x → blockByte blk (0x20 + j) = y →
          blockByte blk (0x40 + j) = 0xFF#8) ∧
    (∀ d : Door, recorded (x, y) (doorTable blk) = some d ↔
      1 ≤ d.id ∧ d.id ≤ 20 ∧ blockByte blk (0x60 + d.id) = x ∧ blockByte blk (0x75 + d.id) = y ∧
        blockByte blk (0x8A + d.id) = d.orientation ∧ x ≠ 0xFF#8 ∧ y ≠ 0xFF#8 ∧ d.orientation ≠ 0xFF#8 ∧
        ∀ j, d.id < j → j ≤ 20 → blockByte blk (0x60 + j) = x → blockByte blk (0x75 + j) = y →
          blockByte blk (0x8A + j) = 0xFF#8) ∧
    (∀ i : Nat, recorded (x, y) (keyTable blk) = some i ↔
      1 ≤ i ∧ i ≤ 20 ∧ blockByte blk (0xA0 + i) = x ∧ blockByte blk (0xB5 + i) = y ∧ x ≠ 0xFF#8 ∧ y ≠ 0xFF#8 ∧
        ∀ j, i < j → j ≤ 20 → ¬ (blockByte blk (0xA0 + j) = x ∧ blockByte blk (0xB5 + j) = y))

/-- R186, R195. The trapdoors are exactly the eight pairs, none filtered, as a set: at most 8, and 8 where the pairs are
distinct; the other tables are no larger than their slots. -/
def Obligations.TrapdoorsAreUnfilteredAndTablesBounded : Prop :=
  ∀ blk : List Byte,
    (∀ p : Coord, p ∈ trapdoorSet blk ↔
      ∃ i, i < 8 ∧ p = (blockByte blk (0xD0 + i), blockByte blk (0xD8 + i))) ∧
    (trapdoorSet blk).Nodup ∧ (trapdoorSet blk).length ≤ 8 ∧
    ((∀ i j, i < 8 → j < 8 → blockByte blk (0xD0 + i) = blockByte blk (0xD0 + j) →
        blockByte blk (0xD8 + i) = blockByte blk (0xD8 + j) → i = j) → (trapdoorSet blk).length = 8) ∧
    (lookupTable blk).length ≤ 31 ∧ (doorTable blk).length ≤ 20 ∧ (keyTable blk).length ≤ 20

/-- R182, R184. The classification of every tile code, and of every door orientation. -/
def Obligations.TileCodesClassify : Prop :=
  (∀ code : Byte, classifyTile code =
    if code = 0x28#8 then .ok .treasure else if code = 0x29#8 then .ok .food
    else if code = 0x2A#8 then .ok .crucifix else if code = 0x2B#8 then .ok .teleport
    else if code = 0x51#8 then .ok .exit else if code = 0x53#8 then .ok .drainer
    else if code = 0x5F#8 then .ok .boots else if code = 0x60#8 then .ok .armour
    else if code = 0x61#8 then .ok .potion else if code = 0x62#8 then .ok .weapons
    else if code = 0x63#8 then .ok .dagger else .error .unknownTileCode) ∧
  (∀ d : Door, d.vertical = true ↔ d.orientation = 0x1D#8)

/-- R188 to R190. The two predicates read the two grids of the block at 0xE0 and 0x1B0 with opposite polarity: 1 is solid,
0 is collectable. -/
def Obligations.GridPredicatesReadTheirBits : Prop :=
  ∀ (blk : List Byte) (r : Fin 48) (c : Fin 32), 0x270 ≤ blk.length →
    ((levelOf blk).isSolid r c = true ↔
      (blockByte blk (0xE0 + (r.val / 8 * 32 + r.val % 8) + 8 * (c.val / 8))).getLsbD (7 - c.val % 8) = true) ∧
    ((levelOf blk).isCollectable r c = true ↔
      (blockByte blk (0x1B0 + (r.val / 8 * 32 + r.val % 8) + 8 * (c.val / 8))).getLsbD (7 - c.val % 8) = false)

/-- R74, R188, R191, R192, R233. The block computes what the level client expects: with a raw level block of at least 0x270
bytes loaded at `BUF[0]` and `BLKLEN` its length, `UNSCRAMBLE`, then `DECODE_GRID` at 0xE0 and at 0x1B0 and `DECODE_SPRITE`
at `BLKLEN - 48` complete, and leave the level's solid grid, collectable grid and wall sprite. -/
def Obligations.CommandsComputeTheLevel : Prop :=
  ∀ (s : State) (raw : List Byte), s.blklen.toNat = raw.length → raw.length ≤ s.cfg.bufSize →
    0x270 ≤ raw.length → (∀ k, k < raw.length → Memory.read s.buf k = raw[k]?) →
    ∃ l t g1 g2 p, decodeLevel raw = .ok l ∧ exec .unscramble s = .next t ∧
      (∀ k, k < raw.length → Memory.read t.buf k = (descramble raw)[k]?) ∧
      exec .decodeGrid (t.setOffset 0xE0#32) = .next g1 ∧ g1.gridOut = l.solidGrid ∧
      exec .decodeGrid (t.setOffset 0x1B0#32) = .next g2 ∧ g2.gridOut = l.collectableGrid ∧
      exec .decodeSprite ((t.setOffset (s.blklen - 48#32)).setLen 24#32) = .next p ∧ p.sprOut = l.wallSprite ∧
      t.status = 0x01#32 ∧ g1.status = 0x01#32 ∧ g2.status = 0x01#32 ∧ p.status = 0x01#32

/-- R197, R198. The sheet client: slot s of an entry at B is at `B + 48s`; decoding fails exactly where the sheet is shorter
than a slot's offset + 24; and with the sheet loaded at `BUF[0]`, not descrambled, `DECODE_SPRITE` at every slot completes
and leaves the slot's sprite, which is what the client records under a name that stands once. That every sheet decodes under
a catalog without slots is the model's choice (log entry 7). -/
def Obligations.CommandsComputeTheSheet : Prop :=
  ∀ (table : SheetTable) (sheet : List Byte),
    (∀ (base : Nat) (names : List String) (k : Nat) (n : String), (base, names) ∈ table → names[k]? = some n →
      (n, base + 48 * k) ∈ sheetSlots table) ∧
    (decodeSheet table sheet = .error .malformedSpriteSheet ↔ ∃ e ∈ sheetSlots table, sheet.length < e.2 + 24) ∧
    ∀ (s : State) (sprites : List (String × Sprite)) (name : String) (off : Nat),
      decodeSheet table sheet = .ok sprites → (name, off) ∈ sheetSlots table →
      s.blklen.toNat = sheet.length → sheet.length ≤ s.cfg.bufSize →
      (∀ k, k < sheet.length → Memory.read s.buf k = sheet[k]?) →
      ∃ t, exec .decodeSprite ((s.setOffset (BitVec.ofNat 32 off)).setLen 24#32) = .next t ∧ t.status = 0x01#32 ∧
        ((∀ off2, (name, off2) ∈ sheetSlots table → off2 = off) → recorded name sprites = some t.sprOut)

/-! ### No time -/

/-- R20, R66, R240, R241. A command is one step: after the step of a `CMD` write nothing of the command is left to do, `DONE`
is 1, and the host's next read sees its `STATUS`, and after success what it wrote: the byte `UNSCRAMBLE` wrote, the row
`DECODE_GRID` or `DECODE_SPRITE` left. The queue and the list of values given back are the model's form of the host (log
entry 1). -/
def Obligations.CommandIsOneStepSeenByTheNextRead : Prop :=
  ∀ (s t : State) (v : Nat) (next : Access) (rest : List Event),
    s.pending = .access (.wrr 0x00 v) :: .access next :: rest → step s = .next t →
    let gives (x : HostValue) := step t = .next { t with pending := rest, reads := s.reads ++ [x] }
    statusDone t.status = true ∧
    (next = .rdr 0x01 → gives (.word t.status)) ∧
    (t.status = 0x01#32 →
      (∀ (k : Nat) (b : Byte), v = 1 → next = .rdb k → k < s.blklen.toNat → Memory.read s.buf k = some b →
        gives (.byte (b ^^^ BitVec.ofNat 8 (k % 256)))) ∧
      (∀ r : Fin 48, v = 2 → next = .rdr (0x10 + r.val) → gives (.word (t.gridRowWord r))) ∧
      (∀ r : Fin 12, v = 3 → next = .rdr (0x40 + r.val) → gives (.word (t.sprRowWord r))))

/-! ### What the clients issue -/

/-- R232. The load of a block that fits completes from every state, and leaves byte i of the block at `BUF[i]`, every other
byte as it was, `BLKLEN` its length, and nothing else changed. -/
def Obligations.LoadPlacesTheBlock : Prop :=
  ∀ (s : State) (raw : List Byte), raw.length ≤ s.cfg.bufSize → raw.length < 2 ^ 32 →
    ∃ m, performAll (expandLines (loadProgram raw)) s =
        .next { s with buf := m, blklen := BitVec.ofNat 32 raw.length } ∧
      (∀ k, k < raw.length → Memory.read m k = raw[k]?) ∧
      (∀ a, raw.length ≤ a → Memory.read m a = Memory.read s.buf a)

/-- R232 to R234. The accesses of the level client and of the sheet client, in order: the load first, whether or not the length
test then holds; where it fails, nothing more, and the client's error; where it holds, the decoding, in which each grid and
each sprite is read out before the next decode. That `UNSCRAMBLE` stands after the test is deduced (log entry 10), and so is
the slot-by-slot order of the record reads, `recordOffsets` (log entry 7); the order of the writes of a load, which R232 leaves
open, the order of steps (4) to (7), which R233 leaves open, and the absence of `STATUS` reads are the model's choice (log
entry 12). -/
def Obligations.ClientsIssueTheirAccessesInOrder : Prop :=
  let load (blk : List Byte) : List Access :=
    (List.range blk.length).map (fun k => .wrb k (blk.getD k 0#8).toNat) ++ [.wrr 0x02 blk.length]
  let grid (off : Nat) : List Access := [.wrr 0x03 off, .wrr 0x00 0x00000002] ++ (List.range' 0x10 48).map .rdr
  let sprite (off : Nat) : List Access :=
    [.wrr 0x03 off, .wrr 0x04 24, .wrr 0x00 0x00000003] ++ (List.range' 0x40 12).map .rdr
  (∀ raw : List Byte,
    (levelProgram raw).error = (if raw.length < 0x270 then some .malformedLevel else none) ∧
    expandLines (levelProgram raw).lines =
      load raw ++
        if raw.length < 0x270 then []
        else [.wrr 0x00 0x00000001] ++ recordOffsets.map .rdb ++ grid 0xE0 ++ grid 0x1B0 ++ sprite (raw.length - 48)) ∧
  (∀ (table : SheetTable) (sheet : List Byte),
    ((sheetProgram table sheet).error = some .malformedSpriteSheet ↔
      decodeSheet table sheet = .error .malformedSpriteSheet) ∧
    ((sheetProgram table sheet).error = none ↔ ∃ sprites, decodeSheet table sheet = .ok sprites) ∧
    expandLines (sheetProgram table sheet).lines =
      load sheet ++
        if (sheetProgram table sheet).error = none then (sheetSlots table).flatMap fun e => sprite e.2 else [])

/-- R181, R183, R185, R186, R194. The record reads of the level client are exactly the table bytes of the level block layout,
each once, and they are enough: blocks that agree on them have the same four tables. That the client reads these offsets back
slot by slot, each once and no others, is deduced (log entry 7): no rule says how often a byte is read. -/
def Obligations.RecordReadsAreTheTableBytes : Prop :=
  (∀ a : Nat, a ∈ recordOffsets ↔
    (0x01 ≤ a ∧ a ≤ 0x1F) ∨ (0x21 ≤ a ∧ a ≤ 0x3F) ∨ (0x41 ≤ a ∧ a ≤ 0x5F) ∨
    (0x61 ≤ a ∧ a ≤ 0x74) ∨ (0x76 ≤ a ∧ a ≤ 0x89) ∨ (0x8B ≤ a ∧ a ≤ 0x9E) ∨
    (0xA1 ≤ a ∧ a ≤ 0xB4) ∨ (0xB6 ≤ a ∧ a ≤ 0xC9) ∨ (0xD0 ≤ a ∧ a ≤ 0xD7) ∨ (0xD8 ≤ a ∧ a ≤ 0xDF)) ∧
  recordOffsets.Nodup ∧
  ∀ blk blk2 : List Byte, (∀ a ∈ recordOffsets, blockByte blk2 a = blockByte blk a) →
    lookupTable blk2 = lookupTable blk ∧ doorTable blk2 = doorTable blk ∧ keyTable blk2 = keyTable blk ∧
      trapdoorSet blk2 = trapdoorSet blk

/-- R232. The order of a load's writes does not matter: the bytes and `BLKLEN` written in any order leave the same state. -/
def Obligations.LoadOrderDoesNotMatter : Prop :=
  ∀ (s : State) (raw : List Byte) (writes : List Access), raw.length ≤ s.cfg.bufSize → raw.length < 2 ^ 32 →
    writes.Perm (expandLines (loadProgram raw)) →
    ∃ t, performAll writes s = .next t ∧ performAll (expandLines (loadProgram raw)) s = .next t
end

