-- ==== Sys2Proof/Laws/Client.lean ====
section
/-! SUPPORT. What host lines stand for, and what a client issues and ends with. -/

namespace Sys2Proof.Machine

@[simp] theorem expandLines_nil : expandLines [] = [] := rfl

@[simp] theorem expandLines_cons (l : HostLine) (ls : List HostLine) :
    expandLines (l :: ls) = l.expand ++ expandLines ls := rfl

@[simp] theorem expandLines_append (ls ms : List HostLine) :
    expandLines (ls ++ ms) = expandLines ls ++ expandLines ms := List.flatMap_append

/-- `load` writes byte k of its list to address `a + k` (R86). -/
theorem loadAccesses_eq (a : Nat) (bytes : List Nat) :
    loadAccesses a bytes = (List.range bytes.length).map fun k => .wrb (a + k) (bytes.getD k 0) := by
  induction bytes generalizing a with
  | nil => rfl
  | cons b bs ih =>
    rw [loadAccesses, ih, List.length_cons, List.range_succ_eq_map, List.map_cons, List.map_map]
    simp [Function.comp_def, Nat.add_assoc, Nat.add_comm 1]

/-- What a client ends with. -/
theorem clientRun_error (blk : List Byte) (minimum : Nat) (failure : ClientError) (decoding : List HostLine) :
    (clientRun blk minimum failure decoding).error = if blk.length < minimum then some failure else none := by
  unfold clientRun
  split_ifs <;> rfl

/-- What a client issues: the load first, and the decoding only where the length test holds (R233, R234). -/
theorem clientRun_lines (blk : List Byte) (minimum : Nat) (failure : ClientError) (decoding : List HostLine) :
    (clientRun blk minimum failure decoding).lines =
      loadProgram blk ++ if blk.length < minimum then [] else decoding := by
  unfold clientRun
  split_ifs <;> simp

end Sys2Proof.Machine
end

