-- ==== Sys2Proof/Laws/Decode.lean ====
section
/-! SUPPORT. The fields of a command word, and what the decoder accepts. -/

namespace Sys2Proof

theorem opField_encode (i : Instr) : opField (encode i) = opOf i := by cases i <;> decide

theorem rsvField_encode (i : Instr) : rsvField (encode i) = 0#28 := by cases i <;> decide

/-- A word is its two fields. -/
theorem eq_of_fields (w : Word) : w = rsvField w ++ opField w := by
  apply BitVec.eq_of_getLsbD_eq
  intro k hk
  simp only [BitVec.getLsbD_append, rsvField, opField, BitVec.getLsbD_extractLsb', Nat.zero_add]
  by_cases h : k < 4
  · simp [h]
  · have h1 : k - 4 < 28 := by omega
    have h2 : 4 + (k - 4) = k := by omega
    simp [h, h1, h2]

/-- The opcode map has no two commands on one code, and no command off its own code. -/
theorem instrOfOp_eq_some {op : BitVec 4} {i : Instr} : instrOfOp op = some i ↔ op = opOf i := by
  have all : ∀ op : BitVec 4, instrOfOp op = some i ↔ op = opOf i := by
    cases i <;> decide +kernel
  exact all op

theorem decode_eq_ok {w : Word} {i : Instr} : decode w = .ok i ↔ rsvField w = 0#28 ∧ opField w = opOf i := by
  unfold decode
  split_ifs with h
  · cases hop : instrOfOp (opField w) with
    | none =>
      have : opField w ≠ opOf i := fun e => by simp [instrOfOp_eq_some.2 e] at hop
      simp [h, this]
    | some j =>
      have hj := instrOfOp_eq_some.1 hop
      have : j = i ↔ opField w = opOf i := by
        rw [← instrOfOp_eq_some, hop, Option.some.injEq]
      simp [h, this]
  · simp [h]

end Sys2Proof
end

