-- ==== Sys2Proof/Laws/Flags.lean ====
section
/-! SUPPORT. The `STATUS` word of each error code (95_test_vectors.md gives the four values). -/

namespace Sys2Proof.Machine

theorem statusWord_success : statusWord .success = 0x01#32 := by decide
theorem statusWord_illegalCommand : statusWord .illegalCommand = 0x13#32 := by decide
theorem statusWord_malformedSprite : statusWord .malformedSprite = 0x23#32 := by decide
theorem statusWord_outOfRange : statusWord .outOfRange = 0x33#32 := by decide

@[simp] theorem statusDone_statusWord (code : ErrorCode) : statusDone (statusWord code) = true := by
  cases code <;> decide

@[simp] theorem legalStatus_statusWord (code : ErrorCode) : legalStatus (statusWord code) := by
  cases code <;> decide

@[simp] theorem statusErr_statusWord (code : ErrorCode) : statusErr (statusWord code) = true ↔ code ≠ .success := by
  cases code <;> decide

@[simp] theorem statusEcode_statusWord (code : ErrorCode) : statusEcode (statusWord code) = code.bits := by
  cases code <;> decide

/-- A command ended in success exactly where `STATUS` is 0x01. -/
theorem statusWord_eq_one {code : ErrorCode} : statusWord code = 0x01#32 ↔ code = .success := by
  cases code <;> decide

/-- Different error codes give different words. -/
theorem statusWord_injective {c d : ErrorCode} (h : statusWord c = statusWord d) : c = d := by
  revert h
  cases c <;> cases d <;> decide

end Sys2Proof.Machine
end

