-- ==== Sys2Proof/Laws/Memory.lean ====
section
/-! SUPPORT. The laws of `BUF`: a read after a write, what a range of reads and writes does, and that every operation
keeps the canonical form and the address space. -/

namespace Sys2Proof.Machine

@[simp] theorem Memory.read_nil (a : Nat) : Memory.read [] a = none := rfl

theorem Memory.read_cons (c : Host.Cell) (m : Memory) (a : Nat) :
    Memory.read (c :: m) a = if c.1 = a then some c.2 else Memory.read m a := rfl

@[simp] theorem Memory.read_write_same (m : Memory) (a : Nat) (v : Byte) :
    Memory.read (Memory.write m a v) a = some v := by
  induction m with
  | nil => simp [Memory.write, Memory.read]
  | cons c m ih =>
    unfold Memory.write
    split_ifs with h1 h2
    · simp [Memory.read]
    · simp [Memory.read]
    · have h3 : c.1 ≠ a := fun h => h2 h.symm
      simp [Memory.read, h3, ih]

theorem Memory.read_write_other (m : Memory) {a b : Nat} (v : Byte) (h : b ≠ a) :
    Memory.read (Memory.write m a v) b = Memory.read m b := by
  have h' : a ≠ b := fun e => h e.symm
  induction m with
  | nil => simp [Memory.write, Memory.read, h']
  | cons c m ih =>
    unfold Memory.write
    split_ifs with h1 h2
    · simp [Memory.read, h']
    · have h3 : c.1 ≠ b := fun e => h' (h2.trans e)
      simp [Memory.read, h', h3]
    · simp [Memory.read, ih]

/-- Writes to two addresses can be exchanged. -/
theorem Memory.write_comm (m : Memory) {a b : Nat} (v w : Byte) (h : a ≠ b) :
    Memory.write (Memory.write m a v) b w = Memory.write (Memory.write m b w) a v := by
  induction m with
  | nil =>
    rcases Nat.lt_or_gt_of_ne h with h | h <;>
      simp [Memory.write, h, h.not_gt, h.ne, h.ne']
  | cons c m ih =>
    simp only [Memory.write]
    split_ifs <;> simp only [Memory.write] <;> split_ifs <;> first | rfl | omega | exact congrArg _ ih

theorem Memory.read_write (m : Memory) (a b : Nat) (v : Byte) :
    Memory.read (Memory.write m a v) b = if b = a then some v else Memory.read m b := by
  split_ifs with h
  · subst h
    simp
  · exact Memory.read_write_other m v h

/-- What a write can list: the new pair, and pairs that were listed. -/
theorem Memory.mem_write {m : Memory} {a : Nat} {v : Byte} {c : Host.Cell} (h : c ∈ Memory.write m a v) :
    c = (a, v) ∨ c ∈ m := by
  induction m with
  | nil => simpa [Memory.write] using h
  | cons d m ih =>
    unfold Memory.write at h
    split_ifs at h with h1 h2
    · simpa using h
    · rcases List.mem_cons.1 h with h | h
      · exact .inl h
      · exact .inr (List.mem_cons_of_mem _ h)
    · rcases List.mem_cons.1 h with h | h
      · exact .inr (h ▸ List.mem_cons_self)
      · exact (ih h).imp_right (List.mem_cons_of_mem _)

theorem Memory.wf_write {m : Memory} (a : Nat) (v : Byte) (h : Memory.wf m) : Memory.wf (Memory.write m a v) := by
  induction m with
  | nil => simp [Memory.write]
  | cons c m ih =>
    obtain ⟨hc, hm⟩ := List.pairwise_cons.1 h
    unfold Memory.write
    split_ifs with h1 h2
    · refine List.pairwise_cons.2 ⟨fun d hd => ?_, h⟩
      rcases List.mem_cons.1 hd with rfl | hd
      · exact h1
      · exact lt_trans h1 (hc d hd)
    · exact List.pairwise_cons.2 ⟨fun d hd => h2 ▸ hc d hd, hm⟩
    · refine List.pairwise_cons.2 ⟨fun d hd => ?_, ih hm⟩
      rcases Memory.mem_write hd with rfl | hd
      · show c.1 < a
        omega
      · exact hc d hd

/-- Only listed addresses have a value. -/
theorem Memory.mem_of_read {m : Memory} {a : Nat} {v : Byte} (h : Memory.read m a = some v) : (a, v) ∈ m := by
  induction m with
  | nil => simp at h
  | cons c m ih =>
    rw [Memory.read_cons] at h
    split_ifs at h with h1
    · obtain rfl := Option.some.inj h
      exact h1 ▸ List.mem_cons_self
    · exact List.mem_cons_of_mem _ (ih h)

/-- In canonical form a listed pair is what a read gives. -/
theorem Memory.read_of_mem {m : Memory} {a : Nat} {v : Byte} (hw : Memory.wf m) (h : (a, v) ∈ m) :
    Memory.read m a = some v := by
  induction m with
  | nil => simp at h
  | cons c m ih =>
    obtain ⟨hc, hm⟩ := List.pairwise_cons.1 hw
    rcases List.mem_cons.1 h with rfl | h
    · simp [Memory.read_cons]
    · have : c.1 ≠ a := Nat.ne_of_lt (hc _ h)
      rw [Memory.read_cons, if_neg this]
      exact ih hm h

/-- Memories in canonical form that read alike are equal. -/
theorem Memory.eq_of_read {m m' : Memory} (hm : Memory.wf m) (hm' : Memory.wf m')
    (h : ∀ a, Memory.read m a = Memory.read m' a) : m = m' := by
  have nodup : ∀ {l : Memory}, Memory.wf l → l.Nodup := fun hl =>
    List.Pairwise.imp (fun hlt e => absurd (congrArg Prod.fst e) (Nat.ne_of_lt hlt)) hl
  have perm : m.Perm m' := (List.perm_ext_iff_of_nodup (nodup hm) (nodup hm')).2 fun ⟨a, v⟩ =>
    ⟨fun hx => Memory.mem_of_read ((h a) ▸ Memory.read_of_mem hm hx),
      fun hx => Memory.mem_of_read ((h a).symm ▸ Memory.read_of_mem hm' hx)⟩
  exact perm.eq_of_pairwise (fun _ _ _ _ h1 h2 => absurd h1 (Nat.lt_asymm h2)) hm hm'

/-! ### Ranges -/

@[simp] theorem Memory.readRange_zero (m : Memory) (base : Nat) : Memory.readRange m base 0 = some [] := rfl

/-- What a range of reads gives: exactly the bytes that stand there. -/
theorem Memory.readRange_eq_some {m : Memory} {base n : Nat} {bs : List Byte} :
    Memory.readRange m base n = some bs ↔ bs.length = n ∧ ∀ k, k < n → Memory.read m (base + k) = bs[k]? := by
  induction n generalizing base bs with
  | zero => simp [Memory.readRange, @eq_comm _ [] bs]
  | succ n ih =>
    constructor
    · intro h
      unfold Memory.readRange at h
      split at h
      · cases h
      · rename_i b hb
        obtain ⟨cs, hcs, rfl⟩ := Option.map_eq_some_iff.1 h
        obtain ⟨hl, hr⟩ := ih.1 hcs
        refine ⟨by simp [hl], fun k hk => ?_⟩
        cases k with
        | zero => simpa using hb
        | succ k =>
          have := hr k (by omega)
          simpa [Nat.add_assoc, Nat.add_comm 1 k] using this
    · rintro ⟨hl, hr⟩
      cases bs with
      | nil => simp at hl
      | cons b cs =>
        have hb : Memory.read m base = some b := by simpa using hr 0 (by omega)
        have hcs : Memory.readRange m (base + 1) n = some cs := by
          refine ih.2 ⟨by simpa using hl, fun k hk => ?_⟩
          have := hr (k + 1) (by omega)
          simpa [Nat.add_assoc, Nat.add_comm 1 k] using this
        simp [Memory.readRange, hb, hcs]

/-- A range of reads fails exactly where a byte of it is unwritten. -/
theorem Memory.readRange_eq_none {m : Memory} {base n : Nat} :
    Memory.readRange m base n = none ↔ ¬ Memory.written m base n := by
  induction n generalizing base with
  | zero => simp [Memory.readRange, Memory.written]
  | succ n ih =>
    have shift : Memory.written m base (n + 1) ↔ Memory.read m base ≠ none ∧ Memory.written m (base + 1) n := by
      constructor
      · intro h
        refine ⟨by simpa using h 0 (by omega), fun k hk => ?_⟩
        have := h (k + 1) (by omega)
        simpa [Nat.add_assoc, Nat.add_comm 1 k] using this
      · rintro ⟨h0, h⟩ k hk
        cases k with
        | zero => simpa using h0
        | succ k =>
          have := h k (by omega)
          simpa [Nat.add_assoc, Nat.add_comm 1 k] using this
    rw [shift]
    unfold Memory.readRange
    cases hb : Memory.read m base with
    | none => simp
    | some b => simp [ih]

theorem Memory.readRange_of_written {m : Memory} {base n : Nat} (h : Memory.written m base n) :
    ∃ bs, Memory.readRange m base n = some bs := by
  cases hr : Memory.readRange m base n with
  | none => exact absurd h (Memory.readRange_eq_none.1 hr)
  | some bs => exact ⟨bs, rfl⟩

/-- A range of writes sets exactly the bytes of its range. -/
theorem Memory.read_writeRange (m : Memory) (base : Nat) (bs : List Byte) (a : Nat) :
    Memory.read (Memory.writeRange m base bs) a =
      if base ≤ a ∧ a < base + bs.length then bs[a - base]? else Memory.read m a := by
  induction bs generalizing m base with
  | nil =>
    have : ¬ (base ≤ a ∧ a < base) := by omega
    simp [Memory.writeRange, this]
  | cons b bs ih =>
    simp only [Memory.writeRange, ih, Memory.read_write, List.length_cons]
    by_cases h1 : base = a
    · subst h1
      simp
    · by_cases h2 : base + 1 ≤ a ∧ a < base + 1 + bs.length
      · have h3 : base ≤ a ∧ a < base + (bs.length + 1) := by omega
        have h4 : a - base = (a - (base + 1)) + 1 := by omega
        simp [h2, h3, h4]
      · have h3 : ¬ (base ≤ a ∧ a < base + (bs.length + 1)) := by omega
        have h4 : a ≠ base := fun e => h1 e.symm
        rw [if_neg h2, if_neg h3, if_neg h4]

theorem Memory.wf_writeRange {m : Memory} (base : Nat) (bs : List Byte) (h : Memory.wf m) :
    Memory.wf (Memory.writeRange m base bs) := by
  induction bs generalizing m base with
  | nil => exact h
  | cons b bs ih => exact ih (base + 1) (Memory.wf_write base b h)

/-- A range of writes lists only addresses of its range and addresses that were listed. -/
theorem Memory.mem_writeRange {m : Memory} {base : Nat} {bs : List Byte} {c : Host.Cell}
    (h : c ∈ Memory.writeRange m base bs) : (base ≤ c.1 ∧ c.1 < base + bs.length) ∨ c ∈ m := by
  induction bs generalizing m base with
  | nil => exact .inr h
  | cons b bs ih =>
    rcases ih h with ⟨h1, h2⟩ | h
    · left
      simp
      omega
    · rcases Memory.mem_write h with rfl | h
      · left
        simp
      · exact .inr h

/-- The reset memory is in canonical form. -/
theorem State.reset_buf_wf : Memory.wf State.reset.buf := List.Pairwise.nil

end Sys2Proof.Machine
end

