-- ==== Sys2Proof/Laws/State.lean ====
section
/-! SUPPORT. What each field of the state is after each named update: one lemma per field per update. -/

namespace Sys2Proof.Machine

@[simp] theorem State.setBuf_cfg (s : State) (m : Memory) : (s.setBuf m).cfg = s.cfg := rfl
@[simp] theorem State.setBuf_status (s : State) (m : Memory) : (s.setBuf m).status = s.status := rfl
@[simp] theorem State.setBuf_blklen (s : State) (m : Memory) : (s.setBuf m).blklen = s.blklen := rfl
@[simp] theorem State.setBuf_offset (s : State) (m : Memory) : (s.setBuf m).offset = s.offset := rfl
@[simp] theorem State.setBuf_len (s : State) (m : Memory) : (s.setBuf m).len = s.len := rfl
@[simp] theorem State.setBuf_buf (s : State) (m : Memory) : (s.setBuf m).buf = m := rfl
@[simp] theorem State.setBuf_gridOut (s : State) (m : Memory) : (s.setBuf m).gridOut = s.gridOut := rfl
@[simp] theorem State.setBuf_gridV (s : State) (m : Memory) : (s.setBuf m).gridV = s.gridV := rfl
@[simp] theorem State.setBuf_sprOut (s : State) (m : Memory) : (s.setBuf m).sprOut = s.sprOut := rfl
@[simp] theorem State.setBuf_sprV (s : State) (m : Memory) : (s.setBuf m).sprV = s.sprV := rfl
@[simp] theorem State.setBuf_pending (s : State) (m : Memory) : (s.setBuf m).pending = s.pending := rfl
@[simp] theorem State.setBuf_reads (s : State) (m : Memory) : (s.setBuf m).reads = s.reads := rfl

@[simp] theorem State.setStatus_cfg (s : State) (w : Word) : (s.setStatus w).cfg = s.cfg := rfl
@[simp] theorem State.setStatus_status (s : State) (w : Word) : (s.setStatus w).status = w := rfl
@[simp] theorem State.setStatus_blklen (s : State) (w : Word) : (s.setStatus w).blklen = s.blklen := rfl
@[simp] theorem State.setStatus_offset (s : State) (w : Word) : (s.setStatus w).offset = s.offset := rfl
@[simp] theorem State.setStatus_len (s : State) (w : Word) : (s.setStatus w).len = s.len := rfl
@[simp] theorem State.setStatus_buf (s : State) (w : Word) : (s.setStatus w).buf = s.buf := rfl
@[simp] theorem State.setStatus_gridOut (s : State) (w : Word) : (s.setStatus w).gridOut = s.gridOut := rfl
@[simp] theorem State.setStatus_gridV (s : State) (w : Word) : (s.setStatus w).gridV = s.gridV := rfl
@[simp] theorem State.setStatus_sprOut (s : State) (w : Word) : (s.setStatus w).sprOut = s.sprOut := rfl
@[simp] theorem State.setStatus_sprV (s : State) (w : Word) : (s.setStatus w).sprV = s.sprV := rfl
@[simp] theorem State.setStatus_pending (s : State) (w : Word) : (s.setStatus w).pending = s.pending := rfl
@[simp] theorem State.setStatus_reads (s : State) (w : Word) : (s.setStatus w).reads = s.reads := rfl

@[simp] theorem State.setBlklen_cfg (s : State) (w : Word) : (s.setBlklen w).cfg = s.cfg := rfl
@[simp] theorem State.setBlklen_status (s : State) (w : Word) : (s.setBlklen w).status = s.status := rfl
@[simp] theorem State.setBlklen_blklen (s : State) (w : Word) : (s.setBlklen w).blklen = w := rfl
@[simp] theorem State.setBlklen_offset (s : State) (w : Word) : (s.setBlklen w).offset = s.offset := rfl
@[simp] theorem State.setBlklen_len (s : State) (w : Word) : (s.setBlklen w).len = s.len := rfl
@[simp] theorem State.setBlklen_buf (s : State) (w : Word) : (s.setBlklen w).buf = s.buf := rfl
@[simp] theorem State.setBlklen_gridOut (s : State) (w : Word) : (s.setBlklen w).gridOut = s.gridOut := rfl
@[simp] theorem State.setBlklen_gridV (s : State) (w : Word) : (s.setBlklen w).gridV = s.gridV := rfl
@[simp] theorem State.setBlklen_sprOut (s : State) (w : Word) : (s.setBlklen w).sprOut = s.sprOut := rfl
@[simp] theorem State.setBlklen_sprV (s : State) (w : Word) : (s.setBlklen w).sprV = s.sprV := rfl
@[simp] theorem State.setBlklen_pending (s : State) (w : Word) : (s.setBlklen w).pending = s.pending := rfl
@[simp] theorem State.setBlklen_reads (s : State) (w : Word) : (s.setBlklen w).reads = s.reads := rfl

@[simp] theorem State.setOffset_cfg (s : State) (w : Word) : (s.setOffset w).cfg = s.cfg := rfl
@[simp] theorem State.setOffset_status (s : State) (w : Word) : (s.setOffset w).status = s.status := rfl
@[simp] theorem State.setOffset_blklen (s : State) (w : Word) : (s.setOffset w).blklen = s.blklen := rfl
@[simp] theorem State.setOffset_offset (s : State) (w : Word) : (s.setOffset w).offset = w := rfl
@[simp] theorem State.setOffset_len (s : State) (w : Word) : (s.setOffset w).len = s.len := rfl
@[simp] theorem State.setOffset_buf (s : State) (w : Word) : (s.setOffset w).buf = s.buf := rfl
@[simp] theorem State.setOffset_gridOut (s : State) (w : Word) : (s.setOffset w).gridOut = s.gridOut := rfl
@[simp] theorem State.setOffset_gridV (s : State) (w : Word) : (s.setOffset w).gridV = s.gridV := rfl
@[simp] theorem State.setOffset_sprOut (s : State) (w : Word) : (s.setOffset w).sprOut = s.sprOut := rfl
@[simp] theorem State.setOffset_sprV (s : State) (w : Word) : (s.setOffset w).sprV = s.sprV := rfl
@[simp] theorem State.setOffset_pending (s : State) (w : Word) : (s.setOffset w).pending = s.pending := rfl
@[simp] theorem State.setOffset_reads (s : State) (w : Word) : (s.setOffset w).reads = s.reads := rfl

@[simp] theorem State.setLen_cfg (s : State) (w : Word) : (s.setLen w).cfg = s.cfg := rfl
@[simp] theorem State.setLen_status (s : State) (w : Word) : (s.setLen w).status = s.status := rfl
@[simp] theorem State.setLen_blklen (s : State) (w : Word) : (s.setLen w).blklen = s.blklen := rfl
@[simp] theorem State.setLen_offset (s : State) (w : Word) : (s.setLen w).offset = s.offset := rfl
@[simp] theorem State.setLen_len (s : State) (w : Word) : (s.setLen w).len = w := rfl
@[simp] theorem State.setLen_buf (s : State) (w : Word) : (s.setLen w).buf = s.buf := rfl
@[simp] theorem State.setLen_gridOut (s : State) (w : Word) : (s.setLen w).gridOut = s.gridOut := rfl
@[simp] theorem State.setLen_gridV (s : State) (w : Word) : (s.setLen w).gridV = s.gridV := rfl
@[simp] theorem State.setLen_sprOut (s : State) (w : Word) : (s.setLen w).sprOut = s.sprOut := rfl
@[simp] theorem State.setLen_sprV (s : State) (w : Word) : (s.setLen w).sprV = s.sprV := rfl
@[simp] theorem State.setLen_pending (s : State) (w : Word) : (s.setLen w).pending = s.pending := rfl
@[simp] theorem State.setLen_reads (s : State) (w : Word) : (s.setLen w).reads = s.reads := rfl

@[simp] theorem State.setGrid_cfg (s : State) (g : Grid) : (s.setGrid g).cfg = s.cfg := rfl
@[simp] theorem State.setGrid_status (s : State) (g : Grid) : (s.setGrid g).status = s.status := rfl
@[simp] theorem State.setGrid_blklen (s : State) (g : Grid) : (s.setGrid g).blklen = s.blklen := rfl
@[simp] theorem State.setGrid_offset (s : State) (g : Grid) : (s.setGrid g).offset = s.offset := rfl
@[simp] theorem State.setGrid_len (s : State) (g : Grid) : (s.setGrid g).len = s.len := rfl
@[simp] theorem State.setGrid_buf (s : State) (g : Grid) : (s.setGrid g).buf = s.buf := rfl
@[simp] theorem State.setGrid_gridOut (s : State) (g : Grid) : (s.setGrid g).gridOut = g := rfl
@[simp] theorem State.setGrid_gridV (s : State) (g : Grid) : (s.setGrid g).gridV = true := rfl
@[simp] theorem State.setGrid_sprOut (s : State) (g : Grid) : (s.setGrid g).sprOut = s.sprOut := rfl
@[simp] theorem State.setGrid_sprV (s : State) (g : Grid) : (s.setGrid g).sprV = s.sprV := rfl
@[simp] theorem State.setGrid_pending (s : State) (g : Grid) : (s.setGrid g).pending = s.pending := rfl
@[simp] theorem State.setGrid_reads (s : State) (g : Grid) : (s.setGrid g).reads = s.reads := rfl

@[simp] theorem State.setSprite_cfg (s : State) (p : Sprite) : (s.setSprite p).cfg = s.cfg := rfl
@[simp] theorem State.setSprite_status (s : State) (p : Sprite) : (s.setSprite p).status = s.status := rfl
@[simp] theorem State.setSprite_blklen (s : State) (p : Sprite) : (s.setSprite p).blklen = s.blklen := rfl
@[simp] theorem State.setSprite_offset (s : State) (p : Sprite) : (s.setSprite p).offset = s.offset := rfl
@[simp] theorem State.setSprite_len (s : State) (p : Sprite) : (s.setSprite p).len = s.len := rfl
@[simp] theorem State.setSprite_buf (s : State) (p : Sprite) : (s.setSprite p).buf = s.buf := rfl
@[simp] theorem State.setSprite_gridOut (s : State) (p : Sprite) : (s.setSprite p).gridOut = s.gridOut := rfl
@[simp] theorem State.setSprite_gridV (s : State) (p : Sprite) : (s.setSprite p).gridV = s.gridV := rfl
@[simp] theorem State.setSprite_sprOut (s : State) (p : Sprite) : (s.setSprite p).sprOut = p := rfl
@[simp] theorem State.setSprite_sprV (s : State) (p : Sprite) : (s.setSprite p).sprV = true := rfl
@[simp] theorem State.setSprite_pending (s : State) (p : Sprite) : (s.setSprite p).pending = s.pending := rfl
@[simp] theorem State.setSprite_reads (s : State) (p : Sprite) : (s.setSprite p).reads = s.reads := rfl

@[simp] theorem State.setPending_cfg (s : State) (es : List Event) : (s.setPending es).cfg = s.cfg := rfl
@[simp] theorem State.setPending_status (s : State) (es : List Event) : (s.setPending es).status = s.status := rfl
@[simp] theorem State.setPending_blklen (s : State) (es : List Event) : (s.setPending es).blklen = s.blklen := rfl
@[simp] theorem State.setPending_offset (s : State) (es : List Event) : (s.setPending es).offset = s.offset := rfl
@[simp] theorem State.setPending_len (s : State) (es : List Event) : (s.setPending es).len = s.len := rfl
@[simp] theorem State.setPending_buf (s : State) (es : List Event) : (s.setPending es).buf = s.buf := rfl
@[simp] theorem State.setPending_gridOut (s : State) (es : List Event) : (s.setPending es).gridOut = s.gridOut := rfl
@[simp] theorem State.setPending_gridV (s : State) (es : List Event) : (s.setPending es).gridV = s.gridV := rfl
@[simp] theorem State.setPending_sprOut (s : State) (es : List Event) : (s.setPending es).sprOut = s.sprOut := rfl
@[simp] theorem State.setPending_sprV (s : State) (es : List Event) : (s.setPending es).sprV = s.sprV := rfl
@[simp] theorem State.setPending_pending (s : State) (es : List Event) : (s.setPending es).pending = es := rfl
@[simp] theorem State.setPending_reads (s : State) (es : List Event) : (s.setPending es).reads = s.reads := rfl

@[simp] theorem State.giveHost_cfg (s : State) (v : HostValue) : (s.giveHost v).cfg = s.cfg := rfl
@[simp] theorem State.giveHost_status (s : State) (v : HostValue) : (s.giveHost v).status = s.status := rfl
@[simp] theorem State.giveHost_blklen (s : State) (v : HostValue) : (s.giveHost v).blklen = s.blklen := rfl
@[simp] theorem State.giveHost_offset (s : State) (v : HostValue) : (s.giveHost v).offset = s.offset := rfl
@[simp] theorem State.giveHost_len (s : State) (v : HostValue) : (s.giveHost v).len = s.len := rfl
@[simp] theorem State.giveHost_buf (s : State) (v : HostValue) : (s.giveHost v).buf = s.buf := rfl
@[simp] theorem State.giveHost_gridOut (s : State) (v : HostValue) : (s.giveHost v).gridOut = s.gridOut := rfl
@[simp] theorem State.giveHost_gridV (s : State) (v : HostValue) : (s.giveHost v).gridV = s.gridV := rfl
@[simp] theorem State.giveHost_sprOut (s : State) (v : HostValue) : (s.giveHost v).sprOut = s.sprOut := rfl
@[simp] theorem State.giveHost_sprV (s : State) (v : HostValue) : (s.giveHost v).sprV = s.sprV := rfl
@[simp] theorem State.giveHost_pending (s : State) (v : HostValue) : (s.giveHost v).pending = s.pending := rfl
@[simp] theorem State.giveHost_reads (s : State) (v : HostValue) : (s.giveHost v).reads = s.reads ++ [v] := rfl

@[simp] theorem State.endCommand_cfg (s : State) (code : ErrorCode) : (s.endCommand code).cfg = s.cfg := rfl
@[simp] theorem State.endCommand_status (s : State) (code : ErrorCode) : (s.endCommand code).status = statusWord code := rfl
@[simp] theorem State.endCommand_blklen (s : State) (code : ErrorCode) : (s.endCommand code).blklen = s.blklen := rfl
@[simp] theorem State.endCommand_offset (s : State) (code : ErrorCode) : (s.endCommand code).offset = s.offset := rfl
@[simp] theorem State.endCommand_len (s : State) (code : ErrorCode) : (s.endCommand code).len = s.len := rfl
@[simp] theorem State.endCommand_buf (s : State) (code : ErrorCode) : (s.endCommand code).buf = s.buf := rfl
@[simp] theorem State.endCommand_gridOut (s : State) (code : ErrorCode) : (s.endCommand code).gridOut = s.gridOut := rfl
@[simp] theorem State.endCommand_gridV (s : State) (code : ErrorCode) : (s.endCommand code).gridV = s.gridV := rfl
@[simp] theorem State.endCommand_sprOut (s : State) (code : ErrorCode) : (s.endCommand code).sprOut = s.sprOut := rfl
@[simp] theorem State.endCommand_sprV (s : State) (code : ErrorCode) : (s.endCommand code).sprV = s.sprV := rfl
@[simp] theorem State.endCommand_pending (s : State) (code : ErrorCode) : (s.endCommand code).pending = s.pending := rfl
@[simp] theorem State.endCommand_reads (s : State) (code : ErrorCode) : (s.endCommand code).reads = s.reads := rfl

@[simp] theorem State.writeBytes_cfg (s : State) (base : Nat) (bs : List Byte) :
    (s.writeBytes base bs).cfg = s.cfg := rfl
@[simp] theorem State.writeBytes_status (s : State) (base : Nat) (bs : List Byte) :
    (s.writeBytes base bs).status = s.status := rfl
@[simp] theorem State.writeBytes_blklen (s : State) (base : Nat) (bs : List Byte) :
    (s.writeBytes base bs).blklen = s.blklen := rfl
@[simp] theorem State.writeBytes_offset (s : State) (base : Nat) (bs : List Byte) :
    (s.writeBytes base bs).offset = s.offset := rfl
@[simp] theorem State.writeBytes_len (s : State) (base : Nat) (bs : List Byte) :
    (s.writeBytes base bs).len = s.len := rfl
@[simp] theorem State.writeBytes_buf (s : State) (base : Nat) (bs : List Byte) :
    (s.writeBytes base bs).buf = Memory.writeRange s.buf base bs := rfl
@[simp] theorem State.writeBytes_gridOut (s : State) (base : Nat) (bs : List Byte) :
    (s.writeBytes base bs).gridOut = s.gridOut := rfl
@[simp] theorem State.writeBytes_gridV (s : State) (base : Nat) (bs : List Byte) :
    (s.writeBytes base bs).gridV = s.gridV := rfl
@[simp] theorem State.writeBytes_sprOut (s : State) (base : Nat) (bs : List Byte) :
    (s.writeBytes base bs).sprOut = s.sprOut := rfl
@[simp] theorem State.writeBytes_sprV (s : State) (base : Nat) (bs : List Byte) :
    (s.writeBytes base bs).sprV = s.sprV := rfl
@[simp] theorem State.writeBytes_pending (s : State) (base : Nat) (bs : List Byte) :
    (s.writeBytes base bs).pending = s.pending := rfl
@[simp] theorem State.writeBytes_reads (s : State) (base : Nat) (bs : List Byte) :
    (s.writeBytes base bs).reads = s.reads := rfl

@[simp] theorem State.applyReset_cfg (s : State) : s.applyReset.cfg = s.cfg := rfl
@[simp] theorem State.applyReset_status (s : State) : s.applyReset.status = (State.resetFor s.cfg).status := rfl
@[simp] theorem State.applyReset_blklen (s : State) : s.applyReset.blklen = (State.resetFor s.cfg).blklen := rfl
@[simp] theorem State.applyReset_offset (s : State) : s.applyReset.offset = (State.resetFor s.cfg).offset := rfl
@[simp] theorem State.applyReset_len (s : State) : s.applyReset.len = (State.resetFor s.cfg).len := rfl
@[simp] theorem State.applyReset_buf (s : State) : s.applyReset.buf = (State.resetFor s.cfg).buf := rfl
@[simp] theorem State.applyReset_gridOut (s : State) : s.applyReset.gridOut = (State.resetFor s.cfg).gridOut := rfl
@[simp] theorem State.applyReset_gridV (s : State) : s.applyReset.gridV = (State.resetFor s.cfg).gridV := rfl
@[simp] theorem State.applyReset_sprOut (s : State) : s.applyReset.sprOut = (State.resetFor s.cfg).sprOut := rfl
@[simp] theorem State.applyReset_sprV (s : State) : s.applyReset.sprV = (State.resetFor s.cfg).sprV := rfl
@[simp] theorem State.applyReset_pending (s : State) : s.applyReset.pending = s.pending := rfl
@[simp] theorem State.applyReset_reads (s : State) : s.applyReset.reads = s.reads := rfl

/-- Two states with equal fields are equal. -/
theorem State.eq_of_fields {s t : State} (hc : s.cfg = t.cfg) (hst : s.status = t.status) (hb : s.blklen = t.blklen)
    (ho : s.offset = t.offset) (hl : s.len = t.len) (hm : s.buf = t.buf) (hg : s.gridOut = t.gridOut)
    (hgv : s.gridV = t.gridV) (hp : s.sprOut = t.sprOut) (hpv : s.sprV = t.sprV) (hq : s.pending = t.pending)
    (hr : s.reads = t.reads) : s = t := by
  cases s
  cases t
  simp_all

end Sys2Proof.Machine
end

