-- ==== Sys2Proof/Laws/Ops.lean ====
section
/-! SUPPORT. What the shared shape of a command can do, and each command in terms of the error it ends with and the bytes
it reads. -/

namespace Sys2Proof.Machine

/-- Everything a command of the shared shape can do: fail with its first error, fault on an unwritten byte, or write
its effect and the `STATUS` of success. -/
theorem State.runCommand_cases (s : State) (checks : List (Bool × ErrorCode)) (base n : Nat)
    (effect : List Byte → State → State) :
    (∃ code, firstError checks = some code ∧
      s.runCommand checks base n effect = .next (s.endCommand code)) ∨
    (firstError checks = none ∧ ¬ Memory.written s.buf base n ∧
      s.runCommand checks base n effect = .fault .uninitRead) ∨
    (∃ bs, firstError checks = none ∧ Memory.readRange s.buf base n = some bs ∧
      s.runCommand checks base n effect = .next ((effect bs s).endCommand .success)) := by
  unfold State.runCommand
  cases he : firstError checks with
  | some code => exact .inl ⟨code, rfl, rfl⟩
  | none =>
    cases hr : Memory.readRange s.buf base n with
    | none => exact .inr (.inl ⟨rfl, Memory.readRange_eq_none.1 hr, rfl⟩)
    | some bs => exact .inr (.inr ⟨bs, rfl, rfl, rfl⟩)

/-- The error checks of each command, as its meaning lists them. -/
def commandChecks : Instr → State → List (Bool × ErrorCode)
  | .unscramble, s => [(s.blockTooLong, .outOfRange)]
  | .decodeGrid, s => [(s.blockTooLong, .outOfRange), (s.windowBeyond gridBytes, .outOfRange)]
  | .decodeSprite, s =>
    [(s.blockTooLong, .outOfRange), (s.tileLengthWrong, .malformedSprite),
      (s.windowBeyond spriteBytes, .outOfRange)]

/-- What each command writes besides `STATUS`, from the bytes it reads. -/
def commandEffect : Instr → List Byte → State → State
  | .unscramble, bs, t => t.writeBytes 0 (descramble bs)
  | .decodeGrid, bs, t => t.setGrid (decodeGridBytes bs)
  | .decodeSprite, bs, t => t.setSprite (decodeSpriteBytes bs)

/-! What a command's effect leaves, whichever command it is. -/

@[simp] theorem commandEffect_unscramble (bs : List Byte) (t : State) :
    commandEffect .unscramble bs t = t.writeBytes 0 (descramble bs) := rfl
@[simp] theorem commandEffect_decodeGrid (bs : List Byte) (t : State) :
    commandEffect .decodeGrid bs t = t.setGrid (decodeGridBytes bs) := rfl
@[simp] theorem commandEffect_decodeSprite (bs : List Byte) (t : State) :
    commandEffect .decodeSprite bs t = t.setSprite (decodeSpriteBytes bs) := rfl
@[simp] theorem commandEffect_cfg (i : Instr) (bs : List Byte) (t : State) :
    (commandEffect i bs t).cfg = t.cfg := by cases i <;> simp
@[simp] theorem commandEffect_blklen (i : Instr) (bs : List Byte) (t : State) :
    (commandEffect i bs t).blklen = t.blklen := by cases i <;> simp
@[simp] theorem commandEffect_offset (i : Instr) (bs : List Byte) (t : State) :
    (commandEffect i bs t).offset = t.offset := by cases i <;> simp
@[simp] theorem commandEffect_len (i : Instr) (bs : List Byte) (t : State) :
    (commandEffect i bs t).len = t.len := by cases i <;> simp
@[simp] theorem commandEffect_pending (i : Instr) (bs : List Byte) (t : State) :
    (commandEffect i bs t).pending = t.pending := by cases i <;> simp
@[simp] theorem commandEffect_reads (i : Instr) (bs : List Byte) (t : State) :
    (commandEffect i bs t).reads = t.reads := by cases i <;> simp

/-- Only `UNSCRAMBLE` writes `BUF`. -/
theorem commandEffect_buf {i : Instr} (h : i ≠ .unscramble) (bs : List Byte) (t : State) :
    (commandEffect i bs t).buf = t.buf := by
  cases i <;> simp_all

/-- What a command writes does not depend on `STATUS`. -/
theorem commandEffect_setStatus (i : Instr) (bs : List Byte) (t : State) (w : Word) :
    commandEffect i bs (t.setStatus w) = (commandEffect i bs t).setStatus w := by
  cases i <;> rfl

/-- The error of a command does not depend on `STATUS`. -/
@[simp] theorem commandError_setStatus (i : Instr) (s : State) (w : Word) :
    commandError i (s.setStatus w) = commandError i s := by
  cases i <;> rfl

/-- What a command reads does not depend on `STATUS`. -/
@[simp] theorem commandWindow_setStatus (i : Instr) (s : State) (w : Word) :
    commandWindow i (s.setStatus w) = commandWindow i s := by
  cases i <;> rfl

/-! When no error applies, command by command. -/

theorem commandError_unscramble {s : State} :
    commandError .unscramble s = .success ↔ s.blklen.toNat ≤ s.cfg.bufSize := by
  simp only [commandError]
  split_ifs with h <;> simp <;> omega

theorem commandError_decodeGrid {s : State} :
    commandError .decodeGrid s = .success ↔
      s.blklen.toNat ≤ s.cfg.bufSize ∧ s.offset.toNat + 192 ≤ s.blklen.toNat := by
  simp only [commandError]
  split_ifs with h <;> simp <;> omega

theorem commandError_decodeSprite {s : State} :
    commandError .decodeSprite s = .success ↔
      s.blklen.toNat ≤ s.cfg.bufSize ∧ s.len.toNat = 24 ∧ s.offset.toNat + 24 ≤ s.blklen.toNat := by
  simp only [commandError]
  split_ifs with h1 h2 h3 <;> simp <;> omega

/-! The state a successful command leaves, written out. The bytes' image is a variable here: unfolding it in a proof by
`rfl` is slow. -/

theorem State.endCommand_eq (s : State) (code : ErrorCode) :
    s.endCommand code = { s with status := statusWord code } := rfl

theorem State.writeBytes_success (s : State) (base : Nat) (bs : List Byte) :
    (s.writeBytes base bs).endCommand .success =
      { s with buf := Memory.writeRange s.buf base bs, status := 0x01#32 } := by
  rw [State.endCommand_eq, statusWord_success]
  rfl

theorem State.setGrid_success (s : State) (g : Grid) :
    (s.setGrid g).endCommand .success = { s with gridOut := g, gridV := true, status := 0x01#32 } := by
  rw [State.endCommand_eq, statusWord_success]
  rfl

theorem State.setSprite_success (s : State) (p : Sprite) :
    (s.setSprite p).endCommand .success = { s with sprOut := p, sprV := true, status := 0x01#32 } := by
  rw [State.endCommand_eq, statusWord_success]
  rfl

/-- Every command has the shared shape. -/
theorem exec_eq_runCommand (i : Instr) (s : State) :
    exec i s = s.runCommand (commandChecks i s) (commandWindow i s).1 (commandWindow i s).2 (commandEffect i) := by
  cases i <;> rfl

/-- The first check that applies is the error the table of R211 and R212 gives. -/
theorem firstError_commandChecks (i : Instr) (s : State) :
    firstError (commandChecks i s) =
      if commandError i s = .success then none else some (commandError i s) := by
  by_cases h1 : s.cfg.bufSize < s.blklen.toNat
  · cases i <;> simp [commandChecks, firstError, commandError, State.blockTooLong, State.blockLength, h1]
  · cases i with
    | unscramble => simp [commandChecks, firstError, commandError, State.blockTooLong, State.blockLength, h1]
    | decodeGrid =>
      by_cases h2 : s.blklen.toNat < s.offset.toNat + 192 <;>
        simp [commandChecks, firstError, commandError, State.blockTooLong, State.windowBeyond, State.blockLength,
          State.baseOffset, h1, h2]
    | decodeSprite =>
      by_cases h2 : s.len.toNat = 24 <;> by_cases h3 : s.blklen.toNat < s.offset.toNat + 24 <;>
        simp [commandChecks, firstError, commandError, State.blockTooLong, State.windowBeyond,
          State.tileLengthWrong, State.blockLength, State.baseOffset, State.tileLength, h1, h2, h3]

/-- A command to which an error applies writes that error to `STATUS` and nothing else. -/
theorem exec_of_error {i : Instr} {s : State} (h : commandError i s ≠ .success) :
    exec i s = .next (s.endCommand (commandError i s)) := by
  rw [exec_eq_runCommand, State.runCommand, firstError_commandChecks, if_neg h]
  rfl

/-- A command to which no error applies faults exactly where a byte it reads is unwritten. -/
theorem exec_of_unwritten {i : Instr} {s : State} (h : commandError i s = .success) (hw : ¬ commandWritten i s) :
    exec i s = .fault .uninitRead := by
  rw [exec_eq_runCommand, State.runCommand, firstError_commandChecks, if_pos h]
  simp only [Memory.readRange_eq_none.2 hw]

/-- A command that is ready writes its effect on the bytes it reads, and the `STATUS` of success. -/
theorem exec_of_bytes {i : Instr} {s : State} {bs : List Byte} (h : commandError i s = .success)
    (hr : Memory.readRange s.buf (commandWindow i s).1 (commandWindow i s).2 = some bs) :
    exec i s = .next ((commandEffect i bs s).endCommand .success) := by
  rw [exec_eq_runCommand, State.runCommand, firstError_commandChecks, if_pos h]
  simp only [hr]

/-- Everything a command can do. -/
theorem exec_cases (i : Instr) (s : State) :
    (commandError i s ≠ .success ∧ exec i s = .next (s.endCommand (commandError i s))) ∨
    (commandError i s = .success ∧ ¬ commandWritten i s ∧ exec i s = .fault .uninitRead) ∨
    (commandError i s = .success ∧ ∃ bs,
      Memory.readRange s.buf (commandWindow i s).1 (commandWindow i s).2 = some bs ∧
      exec i s = .next ((commandEffect i bs s).endCommand .success)) := by
  by_cases h : commandError i s = .success
  · by_cases hw : commandWritten i s
    · obtain ⟨bs, hr⟩ := Memory.readRange_of_written hw
      exact .inr (.inr ⟨h, bs, hr, exec_of_bytes h hr⟩)
    · exact .inr (.inl ⟨h, hw, exec_of_unwritten h hw⟩)
  · exact .inl ⟨h, exec_of_error h⟩

end Sys2Proof.Machine
end

