-- ==== Sys2Proof/Laws/Packing.lean ====
section
/-! SUPPORT. Digits packed most significant first: the sum of `n` digits in a base `b`, digit `c` at weight `b ^ (n - 1 - c)`,
stays below `b ^ n`, and each digit can be read back. The readout registers are such sums (10_state.md R31, R34). -/

namespace Sys2Proof.Machine

/-- Digits packed most significant first, in base `b`. -/
def packDigits (b n : Nat) (f : Nat → Nat) : Nat := ∑ c ∈ Finset.range n, f c * b ^ (n - 1 - c)

theorem packDigits_succ (b n : Nat) (f : Nat → Nat) :
    packDigits b (n + 1) f = packDigits b n (fun c => f (c + 1)) + f 0 * b ^ n := by
  unfold packDigits
  rw [Finset.sum_range_succ']
  refine congrArg₂ (· + ·) (Finset.sum_congr rfl fun c _ => ?_) ?_
  · rw [show n + 1 - 1 - (c + 1) = n - 1 - c by omega]
  · rw [show n + 1 - 1 - 0 = n by omega]

theorem packDigits_lt {b : Nat} (hb : 0 < b) (n : Nat) {f : Nat → Nat} (hf : ∀ c, f c < b) :
    packDigits b n f < b ^ n := by
  induction n generalizing f with
  | zero => simp [packDigits]
  | succ n ih =>
    have h1 := ih (f := fun c => f (c + 1)) (fun c => hf _)
    have h2 : f 0 * b ^ n ≤ (b - 1) * b ^ n := Nat.mul_le_mul_right _ (Nat.le_sub_one_of_lt (hf 0))
    have h3 : (b - 1) * b ^ n + b ^ n = b ^ (n + 1) := by
      rw [← Nat.succ_mul, Nat.succ_eq_add_one, Nat.sub_add_cancel hb, pow_succ, Nat.mul_comm]
    rw [packDigits_succ]
    omega

theorem packDigits_digit {b : Nat} (hb : 0 < b) {n c : Nat} (hc : c < n) {f : Nat → Nat} (hf : ∀ c, f c < b) :
    packDigits b n f / b ^ (n - 1 - c) % b = f c := by
  induction n generalizing f c with
  | zero => omega
  | succ n ih =>
    have h1 := packDigits_lt hb n (f := fun c => f (c + 1)) (fun c => hf _)
    rw [packDigits_succ]
    cases c with
    | zero =>
      rw [show n + 1 - 1 - 0 = n by omega, Nat.add_mul_div_right _ _ (Nat.pow_pos hb), Nat.div_eq_of_lt h1, Nat.zero_add,
        Nat.mod_eq_of_lt (hf 0)]
    | succ c =>
      have h2 : f 0 * b ^ n = b ^ (n - 1 - c) * (b * (f 0 * b ^ c)) := by
        have h3 : b ^ n = b ^ (n - 1 - c) * (b * b ^ c) := by
          rw [← pow_succ', ← pow_add]
          congr 1
          omega
        rw [h3]
        ring
      rw [show n + 1 - 1 - (c + 1) = n - 1 - c by omega, h2, Nat.add_mul_div_left _ _ (Nat.pow_pos hb),
        Nat.add_mul_mod_self_left]
      exact ih (by omega) (f := fun c => f (c + 1)) (fun c => hf _)

/-- A list of all indexes below `n`, mapped and summed, as packed digits. -/
theorem sum_finRange_eq_packDigits {b n : Nat} (g : Fin n → Nat) :
    ((List.finRange n).map fun c => g c * b ^ (n - 1 - c.val)).sum =
      packDigits b n fun c => if h : c < n then g ⟨c, h⟩ else 0 := by
  unfold packDigits
  rw [← Fin.sum_univ_def, Finset.sum_range]
  exact Finset.sum_congr rfl fun c _ => by simp

end Sys2Proof.Machine
end

