-- ==== Sys2Proof/Laws/PerInstr.lean ====
section
/-! SUPPORT. Statements made per command: the form of its word (spec 30_encoding.md R80, R81). -/

namespace Sys2Proof.Laws.CommandWord

/-- The command is well formed, its word has `RSV` = 0 and the command's own code in `OP`, and the code is 1, 2 or 3. -/
def Statement (i : Instr) : Prop :=
  i.wellFormed = true ∧ rsvField (encode i) = 0#28 ∧ opField (encode i) = opOf i ∧
    1 ≤ (opOf i).toNat ∧ (opOf i).toNat ≤ 3

theorem unscramble : Statement .unscramble :=
  ⟨rfl, rsvField_encode _, opField_encode _, by decide, by decide⟩

theorem decodeGrid : Statement .decodeGrid :=
  ⟨rfl, rsvField_encode _, opField_encode _, by decide, by decide⟩

theorem decodeSprite : Statement .decodeSprite :=
  ⟨rfl, rsvField_encode _, opField_encode _, by decide, by decide⟩

end Sys2Proof.Laws.CommandWord
end

