-- ==== Sys2Proof/Laws/Step.lean ====
section
/-! SUPPORT. What one step can do, said once: which event it performs, and what each host access can answer. -/

namespace Sys2Proof.Machine

theorem step_idle {s : State} (h : s.pending = []) : step s = .next s := by
  simp [step, State.nextEvent, State.idle, h]

theorem step_event {s : State} {e : Event} {rest : List Event} (h : s.pending = e :: rest) :
    step s = performEvent e (s.setPending rest) := by
  simp [step, State.nextEvent, h]

/-- A step idles, resets, or performs one access. -/
theorem step_cases (s : State) :
    (s.pending = [] ∧ step s = .next s) ∨
    (∃ rest, s.pending = .reset :: rest ∧ step s = .next (s.setPending rest).applyReset) ∨
    (∃ a rest, s.pending = .access a :: rest ∧ step s = performAccess a (s.setPending rest)) := by
  cases h : s.pending with
  | nil => exact .inl ⟨rfl, step_idle h⟩
  | cons e rest =>
    cases e with
    | reset => exact .inr (.inl ⟨rest, rfl, step_event h⟩)
    | access a => exact .inr (.inr ⟨a, rest, rfl, step_event h⟩)

theorem performWrb_next {a v : Nat} {s t : State} (h : performWrb a v s = .next t) :
    a < s.cfg.bufSize ∧ v ≤ 255 ∧ t = s.setBuf (Memory.write s.buf a (BitVec.ofNat 8 v)) := by
  unfold performWrb at h
  split_ifs at h
  cases h
  refine ⟨by omega, by omega, rfl⟩

theorem performRdb_next {a : Nat} {s t : State} (h : performRdb a s = .next t) :
    ∃ b, Memory.read s.buf a = some b ∧ t = s.giveHost (.byte b) := by
  unfold performRdb at h
  split_ifs at h
  split at h
  · cases h
  · cases h
    exact ⟨_, ‹_›, rfl⟩

theorem performRdr_next {i : Nat} {s t : State} (h : performRdr i s = .next t) :
    ∃ r w, Reg.ofIndex i = some r ∧ s.readReg r = .ok w ∧ t = s.giveHost (.word w) := by
  unfold performRdr at h
  split at h
  · cases h
  · split at h
    · cases h
      exact ⟨_, _, ‹_›, ‹_›, rfl⟩
    · cases h

theorem performWrr_next {i v : Nat} {s t : State} (h : performWrr i v s = .next t) :
    ∃ r, Reg.ofIndex i = some r ∧ v < 2 ^ 32 ∧ s.writeReg (BitVec.ofNat 32 v) r = .next t := by
  unfold performWrr at h
  split at h
  · cases h
  · split_ifs at h
    exact ⟨_, ‹_›, by omega, h⟩

/-- Everything a register write can leave: the command's result, one operand register written, or nothing changed. -/
theorem State.writeReg_next {w : Word} {r : Reg} {s t : State} (h : s.writeReg w r = .next t) :
    (r = .cmd ∧ issueCommand w s = .next t) ∨ (r = .blklen ∧ t = s.setBlklen w) ∨
    (r = .offset ∧ t = s.setOffset w) ∨ (r = .len ∧ t = s.setLen w) ∨ t = s := by
  cases r <;> simp only [State.writeReg, Host.Outcome.next.injEq] at h <;> simp_all

/-- Everything the issue of a command can leave: its error in `STATUS`, or its effect and success. -/
theorem issueCommand_next {w : Word} {s t : State} (h : issueCommand w s = .next t) :
    ((∃ e, decode w = .error e) ∧ t = s.endCommand .illegalCommand) ∨
    (∃ i, decode w = .ok i ∧ commandError i s ≠ .success ∧ t = s.endCommand (commandError i s)) ∨
    (∃ i bs, decode w = .ok i ∧ commandError i s = .success ∧
      Memory.readRange s.buf (commandWindow i s).1 (commandWindow i s).2 = some bs ∧
      t = (commandEffect i bs s).endCommand .success) := by
  unfold issueCommand at h
  split at h
  · rename_i i hd
    rcases exec_cases i s with ⟨he, hx⟩ | ⟨_, _, hx⟩ | ⟨he, bs, hr, hx⟩ <;> rw [hx] at h <;> cases h
    · exact .inr (.inl ⟨i, hd, he, rfl⟩)
    · exact .inr (.inr ⟨i, bs, hd, he, hr, rfl⟩)
  · rename_i e hd
    cases h
    exact .inl ⟨⟨e, hd⟩, rfl⟩

/-- The index of a register is the index that names it. -/
theorem Reg.ofIndex_eq_some {i : Nat} {r : Reg} (h : Reg.ofIndex i = some r) : r.index = i ∧ i ≤ 0xFF := by
  unfold Reg.ofIndex at h
  split_ifs at h <;> cases h <;> refine ⟨?_, by omega⟩ <;> simp only [Reg.index] <;> omega

@[simp] theorem Reg.ofIndex_cmd : Reg.ofIndex 0x00 = some .cmd := rfl
@[simp] theorem Reg.ofIndex_status : Reg.ofIndex 0x01 = some .status := rfl
@[simp] theorem Reg.ofIndex_blklen : Reg.ofIndex 0x02 = some .blklen := rfl
@[simp] theorem Reg.ofIndex_offset : Reg.ofIndex 0x03 = some .offset := rfl
@[simp] theorem Reg.ofIndex_len : Reg.ofIndex 0x04 = some .len := rfl

theorem Reg.ofIndex_eq_none {i : Nat} : Reg.ofIndex i = none ↔ 0xFF < i := by
  unfold Reg.ofIndex
  split_ifs <;> simp <;> omega

/-- A write of the word `v` to `CMD` is the issue of that command. -/
theorem performWrr_cmd {v : Nat} (hv : v < 2 ^ 32) (s : State) :
    performWrr 0x00 v s = issueCommand (BitVec.ofNat 32 v) s := by
  have : ¬ 2 ^ 32 ≤ v := by omega
  simp only [performWrr, Reg.ofIndex_cmd, if_neg this, State.writeReg]

/-- A step whose next access writes `CMD` is the issue of that command. -/
theorem step_cmd {s : State} {v : Nat} {rest : List Event} (h : s.pending = .access (.wrr 0x00 v) :: rest)
    (hv : v < 2 ^ 32) : step s = issueCommand (BitVec.ofNat 32 v) (s.setPending rest) :=
  (step_event h).trans (performWrr_cmd hv _)

/-! What each access answers, case by case. -/

theorem performWrb_badAddress {a v : Nat} {s : State} (h : s.cfg.bufSize ≤ a) :
    performWrb a v s = .refused .badAddress := by simp [performWrb, h]

theorem performWrb_badByte {a v : Nat} {s : State} (ha : a < s.cfg.bufSize) (hv : 255 < v) :
    performWrb a v s = .refused .badByte := by simp [performWrb, ha, hv]

theorem performWrb_ok {a v : Nat} {s : State} (ha : a < s.cfg.bufSize) (hv : v ≤ 255) :
    performWrb a v s = .next (s.setBuf (Memory.write s.buf a (BitVec.ofNat 8 v))) := by
  have h1 : ¬ s.cfg.bufSize ≤ a := by omega
  have h2 : ¬ 255 < v := by omega
  simp only [performWrb, if_neg h1, if_neg h2]

theorem performRdb_badAddress {a : Nat} {s : State} (h : s.cfg.bufSize ≤ a) :
    performRdb a s = .refused .badAddress := by simp [performRdb, h]

theorem performRdb_unwritten {a : Nat} {s : State} (ha : a < s.cfg.bufSize) (hr : Memory.read s.buf a = none) :
    performRdb a s = .fault .uninitRead := by
  have h1 : ¬ s.cfg.bufSize ≤ a := by omega
  simp only [performRdb, if_neg h1, hr]

theorem performRdb_ok {a : Nat} {s : State} {b : Byte} (ha : a < s.cfg.bufSize) (hr : Memory.read s.buf a = some b) :
    performRdb a s = .next (s.giveHost (.byte b)) := by
  have h1 : ¬ s.cfg.bufSize ≤ a := by omega
  simp only [performRdb, if_neg h1, hr]

theorem performWrr_badIndex {i v : Nat} {s : State} (h : 0xFF < i) : performWrr i v s = .refused .badIndex := by
  simp [performWrr, Reg.ofIndex_eq_none.2 h]

theorem performWrr_badValue {i v : Nat} {s : State} (hi : i ≤ 0xFF) (hv : 2 ^ 32 ≤ v) :
    performWrr i v s = .refused .badValue := by
  cases h : Reg.ofIndex i with
  | none => exact absurd (Reg.ofIndex_eq_none.1 h) (by omega)
  | some r => simp only [performWrr, h, if_pos hv]

theorem performWrr_ok {i v : Nat} {s : State} {r : Reg} (hr : Reg.ofIndex i = some r) (hv : v < 2 ^ 32) :
    performWrr i v s = s.writeReg (BitVec.ofNat 32 v) r := by
  have h1 : ¬ 2 ^ 32 ≤ v := by omega
  simp only [performWrr, hr, if_neg h1]

theorem performRdr_badIndex {i : Nat} {s : State} (h : 0xFF < i) : performRdr i s = .refused .badIndex := by
  simp [performRdr, Reg.ofIndex_eq_none.2 h]

theorem performRdr_ok {i : Nat} {s : State} {r : Reg} {w : Word} (hr : Reg.ofIndex i = some r)
    (hw : s.readReg r = .ok w) : performRdr i s = .next (s.giveHost (.word w)) := by
  simp only [performRdr, hr, hw]

theorem performRdr_unwritten {i : Nat} {s : State} {r : Reg} {f : Fault} (hr : Reg.ofIndex i = some r)
    (hw : s.readReg r = .error f) : performRdr i s = .fault f := by
  simp only [performRdr, hr, hw]

/-! The register map, index by index. -/

@[simp] theorem Reg.ofIndex_gridRow (r : Fin 48) : Reg.ofIndex (0x10 + r.val) = some (.gridRow r) := by
  unfold Reg.ofIndex
  rw [if_neg (by omega), if_neg (by omega), if_neg (by omega), if_neg (by omega), if_neg (by omega),
    dif_pos (by omega)]
  exact congrArg some (congrArg Reg.gridRow (Fin.ext (by simp)))

@[simp] theorem Reg.ofIndex_sprRow (r : Fin 12) : Reg.ofIndex (0x40 + r.val) = some (.sprRow r) := by
  unfold Reg.ofIndex
  rw [if_neg (by omega), if_neg (by omega), if_neg (by omega), if_neg (by omega), if_neg (by omega),
    dif_neg (by omega), dif_pos (by omega)]
  exact congrArg some (congrArg Reg.sprRow (Fin.ext (by simp)))

theorem Reg.ofIndex_reserved {i : Nat} (h : (0x05 ≤ i ∧ i ≤ 0x0F) ∨ (0x4C ≤ i ∧ i ≤ 0xFF)) :
    Reg.ofIndex i = some (.reserved i) := by
  unfold Reg.ofIndex
  rw [if_neg (by omega), if_neg (by omega), if_neg (by omega), if_neg (by omega), if_neg (by omega),
    dif_neg (by omega), dif_neg (by omega), if_pos (by omega)]

/-- A reserved register stands only at a reserved index. -/
theorem Reg.reserved_of_ofIndex {i j : Nat} (h : Reg.ofIndex i = some (.reserved j)) :
    (0x05 ≤ i ∧ i ≤ 0x0F) ∨ (0x4C ≤ i ∧ i ≤ 0xFF) := by
  unfold Reg.ofIndex at h
  split_ifs at h <;> first | omega | cases h

/-! The readout registers depend only on the result arrays. -/

@[simp] theorem State.gridRowWord_setPending (s : State) (es : List Event) (r : Fin 48) :
    (s.setPending es).gridRowWord r = s.gridRowWord r := by simp only [State.gridRowWord, State.setPending_gridOut]

@[simp] theorem State.sprRowWord_setPending (s : State) (es : List Event) (r : Fin 12) :
    (s.setPending es).sprRowWord r = s.sprRowWord r := by simp only [State.sprRowWord, State.setPending_sprOut]

/-- What a command does does not depend on what the host does next. -/
@[simp] theorem commandError_setPending (i : Instr) (s : State) (es : List Event) :
    commandError i (s.setPending es) = commandError i s := by cases i <;> rfl

@[simp] theorem commandWindow_setPending (i : Instr) (s : State) (es : List Event) :
    commandWindow i (s.setPending es) = commandWindow i s := by cases i <;> rfl

@[simp] theorem performAccess_wrb (a v : Nat) (s : State) : performAccess (.wrb a v) s = performWrb a v s := rfl
@[simp] theorem performAccess_rdb (a : Nat) (s : State) : performAccess (.rdb a) s = performRdb a s := rfl
@[simp] theorem performAccess_wrr (i v : Nat) (s : State) : performAccess (.wrr i v) s = performWrr i v s := rfl
@[simp] theorem performAccess_rdr (i : Nat) (s : State) : performAccess (.rdr i) s = performRdr i s := rfl

/-! Several accesses. -/

@[simp] theorem performAll_nil (s : State) : performAll [] s = .next s := rfl

theorem performAll_cons_next {a : Access} {s t : State} (h : performAccess a s = .next t) (rest : List Access) :
    performAll (a :: rest) s = performAll rest t := by simp only [performAll, h]

/-- Accesses that complete, then others: the others run from the state the first ones leave. -/
theorem performAll_append_next {as : List Access} {s t : State} (h : performAll as s = .next t) (bs : List Access) :
    performAll (as ++ bs) s = performAll bs t := by
  induction as generalizing s with
  | nil => cases h; rfl
  | cons a as ih =>
    simp only [performAll, List.cons_append] at h ⊢
    split at h
    · exact ih h
    · cases h
    · cases h

end Sys2Proof.Machine
end

