-- ==== Sys2Proof/Laws/Units.lean ====
section
/-! SUPPORT. The small lemmas of the byte functions of the three units and of the readout registers. -/

namespace Sys2Proof.Machine

@[simp] theorem descrambleFrom_length (i : Nat) (bs : List Byte) : (descrambleFrom i bs).length = bs.length := by
  induction bs generalizing i with
  | nil => rfl
  | cons b bs ih => simp [descrambleFrom, ih]

@[simp] theorem descramble_length (bs : List Byte) : (descramble bs).length = bs.length := descrambleFrom_length 0 bs

theorem descrambleFrom_getElem? (i : Nat) (bs : List Byte) (k : Nat) :
    (descrambleFrom i bs)[k]? = bs[k]?.map fun b => b ^^^ keyByte (i + k) := by
  induction bs generalizing i k with
  | nil => simp [descrambleFrom]
  | cons b bs ih =>
    cases k with
    | zero => simp [descrambleFrom]
    | succ k => simp [descrambleFrom, ih, Nat.add_assoc, Nat.add_comm 1 k]

theorem descramble_getElem? (bs : List Byte) (k : Nat) :
    (descramble bs)[k]? = bs[k]?.map fun b => b ^^^ keyByte k := by
  simp [descramble, descrambleFrom_getElem?]

/-- Bit `b` of a byte, most significant first, is its bit `7 - b`. -/
theorem gridBit_eq (byte : Byte) {b : Nat} (h : b < 8) : gridBit byte b = byte.getLsbD (7 - b) := by
  revert byte
  interval_cases b <;> decide +kernel

theorem decodeGridBytes_cell (bs : List Byte) (r : Fin 48) (c : Fin 32) :
    (decodeGridBytes bs)[r][c] = gridCell bs r c := by
  simp [decodeGridBytes]

theorem decodeSpriteBytes_pixel (bs : List Byte) (r : Fin 12) (c : Fin 8) :
    (decodeSpriteBytes bs)[r][c] = spritePixel bs r c := by
  simp [decodeSpriteBytes]

/-- A register read changes nothing, so it depends on the register's own storage alone. -/
theorem State.readReg_gridRow (s : State) (r : Fin 48) (h : s.gridV = true) :
    s.readReg (.gridRow r) = .ok (s.gridRowWord r) := by
  simp [State.readReg, h]

theorem State.readReg_sprRow (s : State) (r : Fin 12) (h : s.sprV = true) :
    s.readReg (.sprRow r) = .ok (s.sprRowWord r) := by
  simp [State.readReg, h]

end Sys2Proof.Machine
end

