-- ==== Sys2Proof/Tests/Slice0.lean ====
section
/-! SUPPORT. The model's own tests, with expected results from spec/95_test_vectors.md or worked out by hand from the rules,
and for each statement with hypotheses a witness that meets them. -/

namespace Sys2Proof.Tests

open Sys2Proof Sys2Proof.Machine

/-! ### Small states -/

/-- A DJD of `size` bytes after reset, with operand registers and buffer set. -/
def sample (size blk off len : Nat) (buf : Memory) : State :=
  { State.resetFor { bufSize := size } with
    blklen := BitVec.ofNat 32 blk, offset := BitVec.ofNat 32 off, len := BitVec.ofNat 32 len, buf := buf }

/-- Bytes 0 to n - 1, all of one value. -/
def filled (n : Nat) (v : Byte) : Memory := (List.range n).map fun a => (a, v)

theorem filled_wf (n : Nat) (v : Byte) : Memory.wf (filled n v) :=
  List.pairwise_map.2 (List.pairwise_lt_range.imp fun h => h)

/-- A filled buffer reads as a block of that value. -/
theorem read_filled {n k : Nat} (v : Byte) (h : k < n) :
    Memory.read (filled n v) k = (List.replicate n v)[k]? := by
  rw [Memory.read_of_mem (filled_wf n v) (List.mem_map.2 ⟨k, List.mem_range.2 h, rfl⟩)]
  simp [h]

/-- The state an outcome gives, if it gives one. -/
def nextState (o : Host.Outcome State Fault Refusal) : Option State :=
  match o with
  | .next t => some t
  | .fault _ => none
  | .refused _ => none

/-- The state an outcome gives, or the reset state. -/
def after (o : Host.Outcome State Fault Refusal) : State := (nextState o).getD State.reset

/-- Whether an outcome is `UNINIT_READ`. -/
def isUninit (o : Host.Outcome State Fault Refusal) : Bool :=
  match o with
  | .next _ => false
  | .fault .uninitRead => true
  | .refused _ => false

/-- The refusal an outcome gives, if it gives one. -/
def refusalOf (o : Host.Outcome State Fault Refusal) : Option Refusal :=
  match o with
  | .next _ => none
  | .fault _ => none
  | .refused r => some r

theorem next_after {o : Host.Outcome State Fault Refusal} (h : (nextState o).isSome = true) : o = .next (after o) := by
  cases o with
  | next t => rfl
  | fault f => simp [nextState] at h
  | refused r => simp [nextState] at h

/-- A state whose host performs `es` next. -/
def withEvents (s : State) (es : List Event) : State := s.setPending es

/-- The bytes of `BUF` at addresses 0 to n - 1. -/
def bytes (s : State) (n : Nat) : List (Option Byte) := (List.range n).map fun a => Memory.read s.buf a

/-- A block of `n` bytes of one value, with some bytes set. -/
def block (n : Nat) (v : Byte) (sets : List (Nat × Byte)) : List Byte :=
  sets.foldl (fun b e => b.set e.1 e.2) (List.replicate n v)

/-! ### WellFormed smoke: for each check, a term it accepts at its bound and one it refuses just beyond -/

theorem test_wellFormed_address :
    Access.wellFormed 65536 (.wrb 65535 0) = true ∧ Access.wellFormed 65536 (.wrb 65536 0) = false ∧
    Access.wellFormed 65536 (.rdb 65535) = true ∧ Access.wellFormed 65536 (.rdb 65536) = false := by decide

theorem test_wellFormed_byte :
    Access.wellFormed 65536 (.wrb 0 255) = true ∧ Access.wellFormed 65536 (.wrb 0 256) = false := by decide

theorem test_wellFormed_index :
    Access.wellFormed 65536 (.wrr 0xFF 0) = true ∧ Access.wellFormed 65536 (.wrr 0x100 0) = false ∧
    Access.wellFormed 65536 (.rdr 0xFF) = true ∧ Access.wellFormed 65536 (.rdr 0x100) = false := by decide

theorem test_wellFormed_value :
    Access.wellFormed 65536 (.wrr 2 0xFFFFFFFF) = true ∧ Access.wellFormed 65536 (.wrr 2 0x100000000) = false := by
  decide

/-- R80, R81: a command has no operand, so all three are well formed. -/
theorem test_wellFormed_commands :
    Instr.wellFormed .unscramble = true ∧ Instr.wellFormed .decodeGrid = true ∧
    Instr.wellFormed .decodeSprite = true := by decide

/-! ### Decoding: the words of R81 written out bit by bit, `RSV` then `OP` (vectors D-1 to D-11) -/

theorem test_decode_unscramble : decode 0b0000000000000000000000000000_0001#32 = .ok .unscramble := by decide

theorem test_decode_grid : decode 0b0000000000000000000000000000_0010#32 = .ok .decodeGrid := by decide

theorem test_decode_sprite : decode 0b0000000000000000000000000000_0011#32 = .ok .decodeSprite := by decide

theorem test_decode_reserved :
    decode 0b0000000000000000000000000000_0000#32 = .error .reservedOp ∧
    decode 0b0000000000000000000000000000_0100#32 = .error .reservedOp ∧
    decode 0b0000000000000000000000000000_1111#32 = .error .reservedOp ∧
    decode 0b0000000000000000000000000001_0000#32 = .error .reservedBits ∧
    decode 0b0000000000000000000000000001_0001#32 = .error .reservedBits ∧
    decode 0b1000000000000000000000000000_0001#32 = .error .reservedBits := by decide

/-- No two rows of spec/opcode_table.json overlap: with the full mask, the match words differ. -/
theorem test_opcode_rows_disjoint :
    List.Pairwise (fun a b : Word => a &&& 0xFFFFFFFF#32 ≠ b &&& 0xFFFFFFFF#32)
      [encode .unscramble, encode .decodeGrid, encode .decodeSprite] := by decide

/-- Vector D-11, and the mnemonic of a legal word (R83). -/
theorem test_disassemble :
    disassemble 0x00000013#32 = ".word 0x00000013".toList ∧ disassemble 0xDEADBEEF#32 = ".word 0xDEADBEEF".toList ∧
    disassemble 0x00000002#32 = "DECODE_GRID".toList := by decide

/-! ### UNSCRAMBLE -/

/-- Vector U9: `OFFSET` and `LEN` ignored, bytes beyond `BLKLEN` untouched. -/
theorem test_unscramble_u9 :
    bytes (after (exec .unscramble (sample 65536 2 2 7 (filled 4 0x10#8)))) 4 =
      [some 0x10#8, some 0x11#8, some 0x10#8, some 0x10#8] ∧
    (after (exec .unscramble (sample 65536 2 2 7 (filled 4 0x10#8)))).status = 0x01#32 := by decide

/-- The key wraps to 0 at position 256 (vector U3). -/
theorem test_unscramble_key_wraps :
    keyByte 0 = 0x00#8 ∧ keyByte 255 = 0xFF#8 ∧ keyByte 256 = 0x00#8 ∧ keyByte 257 = 0x01#8 := by decide

/-! ### DECODE_GRID -/

/-- A written grid block of zeros but for some bytes. -/
def gridState (sets : List (Nat × Byte)) : State :=
  sample 65536 192 0 0 (sets.foldl (fun m e => Memory.write m e.1 e.2) (filled 192 0x00#8))

/-- Vectors G9 and G10 in one: the row word is the source bytes in group order, and 0x27 is row 15. -/
theorem test_grid_g9_g10 :
    let t := after (exec .decodeGrid
      (gridState [(0x00, 0x12#8), (0x08, 0x34#8), (0x10, 0x56#8), (0x18, 0x78#8), (0x27, 0xA5#8)]))
    t.gridRowWord 0 = 0x12345678#32 ∧ t.gridRowWord 15 = 0xA5000000#32 ∧ t.gridRowWord 1 = 0#32 ∧
      t.status = 0x01#32 := by decide +kernel

/-- Vectors G8 and G12: the highest byte read, and strip 4. -/
theorem test_grid_g8_g12 :
    let t := after (exec .decodeGrid (gridState [(0xBF, 0x01#8), (0x9A, 0x3C#8)]))
    t.gridRowWord 47 = 0x00000001#32 ∧ t.gridRowWord 34 = 0x0000003C#32 ∧ t.gridOut[47][31] = true := by
  decide +kernel

/-! ### DECODE_SPRITE -/

/-- A written tile of zeros but for some bytes. -/
def tileState (sets : List (Nat × Byte)) : State :=
  sample 65536 24 0 24 (sets.foldl (fun m e => Memory.write m e.1 e.2) (filled 24 0x00#8))

/-- Vectors S3, S4 (in row 1) and S6. -/
theorem test_sprite_s3_s4_s6 :
    let t := after (exec .decodeSprite
      (tileState [(0, 0x88#8), (1, 0x11#8), (2, 0x0F#8), (3, 0xF0#8), (22, 0x08#8), (23, 0x80#8)]))
    t.sprRowWord 0 = 0xC003#32 ∧ t.sprRowWord 1 = 0x55AA#32 ∧ t.sprRowWord 11 = 0x4080#32 ∧
      t.sprOut[11][4] = 2#2 ∧ t.status = 0x01#32 := by decide +kernel

/-- Vectors S12 and S10: errors before `UNINIT_READ`, and `BLKLEN > BUF_SIZE` before `LEN`. -/
theorem test_sprite_s12_s10 :
    (after (exec .decodeSprite (sample 65536 24 0 23 []))).status = 0x23#32 ∧
    (after (exec .decodeSprite (sample 65536 65537 0 23 []))).status = 0x33#32 := by decide

/-! ### Host accesses and steps -/

/-- From reset, the very next step runs the fetched word: `UNSCRAMBLE` of the empty block succeeds (vector U4),
`DECODE_GRID` and `DECODE_SPRITE` fail (R211), an illegal word writes 0x13 (vector D-5). -/
theorem test_withFetchWord_from_reset :
    (after (step (State.reset.withFetchWord 32 1))).status = 0x01#32 ∧
    (after (step (State.reset.withFetchWord 32 2))).status = 0x33#32 ∧
    (after (step (State.reset.withFetchWord 32 3))).status = 0x23#32 ∧
    (after (step (State.reset.withFetchWord 32 4))).status = 0x13#32 := by decide

/-- Vectors H1, H4, H6, H9. -/
theorem test_host_reads :
    (after (performAccess (.rdr 0x01) State.reset)).reads = [.word 0#32] ∧
    (after (performAccess (.rdr 0xFF) State.reset)).reads = [.word 0#32] ∧
    isUninit (performAccess (.rdr 0x10) State.reset) = true ∧
    refusalOf (performAccess (.wrb 0x10000 0) State.reset) = some .badAddress := by decide

/-- Vectors H5 and H11. -/
theorem test_host_writes :
    performAccess (.wrr 0x01 0) (State.reset.setStatus 0x33#32) = .next (State.reset.setStatus 0x33#32) ∧
    (after (performAccess (.wrr 0x03 0xFFFFFFFF) State.reset)).offset = 0xFFFFFFFF#32 := ⟨rfl, by decide⟩

/-- A write keeps the canonical form: addresses rising, one entry an address (R65). -/
theorem test_memory_write :
    Memory.write [(1, 0#8), (5, 0#8)] 3 7#8 = [(1, 0#8), (3, 7#8), (5, 0#8)] ∧
    Memory.write [(1, 0#8), (5, 0#8)] 5 7#8 = [(1, 0#8), (5, 7#8)] := by decide

/-- Lines of programs P1 and P2 and the pseudo-instructions of R86. -/
theorem test_assemble :
    assemble "load 0, 0x44, 0x4B ; raw block\nblock 4\nunscramble\ngrid 0xE0\nrdr GRIDROW 1\n\ncmd 0x00000000" =
      some [.wrb 0 0x44, .wrb 1 0x4B, .wrr 2 4, .wrr 0 1, .wrr 3 0xE0, .wrr 0 2, .rdr 0x11, .wrr 0 0] ∧
    assemble "wrr GRIDROW 47, 1" = some [.wrr 0x3F 1] ∧ assemble "rdr SPRROW 12" = none ∧
    assemble "wrb 0" = none ∧ assemble "fill 4, 2, 9" = some [.wrb 4 9, .wrb 5 9] := by decide +kernel

/-! ### Client software -/

/-- Vectors L2 and L4: a door, and a door filtered by one 0xFF byte. -/
theorem test_client_doors :
    doorTable (block 0xE0 0xFF#8 [(0x62, 10#8), (0x77, 6#8), (0x8C, 0x1D#8)]) = [((10#8, 6#8), ⟨2, 0x1D#8⟩)] ∧
    Door.vertical ⟨2, 0x1D#8⟩ = true ∧
    doorTable (block 0xE0 0xFF#8 [(0x62, 10#8), (0x8C, 0x1D#8)]) = [] := by decide +kernel

/-- Vectors L7, L8 and L1 (trapdoors). -/
theorem test_client_lookup :
    recorded (1#8, 1#8) (lookupTable (block 0xE0 0xFF#8 [(0x03, 1#8), (0x23, 1#8), (0x43, 0x28#8),
      (0x09, 1#8), (0x29, 1#8), (0x49, 0x29#8)])) = some 0x29#8 ∧
    lookupTable (block 0xE0 0xFF#8 [(0x41, 0x60#8)]) = [((0xFF#8, 0xFF#8), 0x60#8)] ∧
    trapdoorSet (block 0xE0 0xFF#8 []) = [(0xFF#8, 0xFF#8)] := by decide +kernel

/-- Vectors L11 and L12. -/
theorem test_client_level_length :
    (decodeLevel (List.replicate 0x26F 0#8)).isOk = false ∧ (decodeLevel (List.replicate 0x270 0#8)).isOk = true := by
  decide +kernel

/-! ### Witnesses: for each statement with hypotheses, a state and operands that meet them, clause by clause -/

theorem witness_DecodeAcceptsExactlyTheThreeWords : ∃ i : Instr, i.wellFormed = true := ⟨.decodeSprite, rfl⟩

/-- The hypothesis of `IllegalWordWritesOnlyStatus`. -/
abbrev notACommand (w : Word) : Prop := w.extractLsb' 4 28 ≠ 0#28 ∨ w.extractLsb' 0 4 ∉ [0x1#4, 0x2#4, 0x3#4]

theorem witness_IllegalWordWritesOnlyStatus :
    notACommand 0x00#32 ∧ notACommand 0x04#32 ∧ notACommand 0x0F#32 ∧ notACommand 0x10#32 ∧
    notACommand 0x11#32 ∧ notACommand 0x80000001#32 := by decide

theorem witness_StepRunsTheDecodedCommand :
    ∃ (s : State) (rest : List Event),
      (s.pending = .access (.wrr 0x00 3) :: rest ∧ decode (BitVec.ofNat 32 3) = .ok .decodeSprite) ∧
      ∃ s2 : State, s2.pending = .access (.wrr 0x00 0xFFFFFFFF) :: rest ∧
        decode (BitVec.ofNat 32 0xFFFFFFFF) = .error .reservedBits :=
  ⟨withEvents State.reset [.access (.wrr 0x00 3)], [], ⟨rfl, by decide⟩,
    withEvents State.reset [.access (.wrr 0x00 0xFFFFFFFF)], rfl, by decide⟩

/-- A state whose next access is a byte write at the last address. -/
def writingState : State := withEvents (sample 4 2 0 0 (filled 2 0x10#8)) [.access (.wrb 3 255), .reset]

theorem witness_StepsTakeEventsInOrder :
    ∃ t, writingState.pending = .access (.wrb 3 255) :: [.reset] ∧ step writingState = .next t ∧
      ∃ s : State, s.pending = [] :=
  ⟨_, rfl, next_after (by decide), State.reset, rfl⟩

theorem witness_ResetMeetsTheInvariant : Config.Valid ⟨1⟩ ∧ Config.Valid ⟨2 ^ 32⟩ := by decide

theorem witness_EveryStepKeepsTheInvariant : writingState.Inv ∧ ∃ t, step writingState = .next t :=
  ⟨by decide, _, next_after (by decide)⟩

theorem witness_ResetEventLeavesTheResetState : ∃ (s : State) (rest : List Event), s.pending = .reset :: rest :=
  ⟨withEvents (sample 4 2 0 0 (filled 2 0x10#8)) [.reset], [], rfl⟩

theorem witness_EveryCommandRecordsItsOutcome :
    (∃ t, issueCommand 0x00#32 State.reset = .next t) ∧ (∃ t, issueCommand 0x01#32 State.reset = .next t) ∧
    (∃ t, issueCommand 0x02#32 State.reset = .next t) :=
  ⟨⟨_, next_after (by decide)⟩, ⟨_, next_after (by decide)⟩, ⟨_, next_after (by decide)⟩⟩

theorem witness_StatusReportsSuccessOrOneOfThreeCodes :
    ∃ t, issueCommand 0x03#32 State.reset = .next t ∧ statusErr t.status = true ∧ statusEcode t.status = 2#4 :=
  ⟨_, next_after (by decide), by decide, by decide⟩

/-- The clauses of the priority order, each at its bound; a success at the bound of each command. -/
theorem witness_ErrorsInPriorityOrder :
    decode 0x04#32 = .error .reservedOp ∧
    (sample 4 5 0 0 []).cfg.bufSize < (sample 4 5 0 0 []).blklen.toNat ∧
    ((sample 30 30 0 23 []).blklen.toNat ≤ (sample 30 30 0 23 []).cfg.bufSize ∧
      (sample 30 30 0 23 []).len.toNat ≠ 24) ∧
    ((sample 30 30 7 24 []).blklen.toNat ≤ (sample 30 30 7 24 []).cfg.bufSize ∧
      (sample 30 30 7 24 []).len.toNat = 24 ∧
      (sample 30 30 7 24 []).blklen.toNat < (sample 30 30 7 24 []).offset.toNat + 24) ∧
    ((sample 192 192 1 0 []).blklen.toNat ≤ (sample 192 192 1 0 []).cfg.bufSize ∧
      (sample 192 192 1 0 []).blklen.toNat < (sample 192 192 1 0 []).offset.toNat + 192) := by decide

/-- A block that fills its buffer, a grid that fills its block, a tile that ends its block (vector S8b). -/
def fullBlock : State := sample 2 2 0 0 (filled 2 0x41#8)
def fullGrid : State := sample 192 192 0 0 (filled 192 0xFF#8)
def lastTile : State := sample 30 30 6 24 (filled 30 0xFF#8)

theorem fullBlock_next : (nextState (exec .unscramble fullBlock)).isSome = true := by decide

theorem fullGrid_next : (nextState (exec .decodeGrid fullGrid)).isSome = true := by decide +kernel

theorem lastTile_next : (nextState (exec .decodeSprite lastTile)).isSome = true := by decide +kernel

theorem witness_ErrorsInPriorityOrder_success :
    (fullBlock.blklen.toNat ≤ fullBlock.cfg.bufSize ∧ ∃ t, exec .unscramble fullBlock = .next t) ∧
    (fullGrid.blklen.toNat ≤ fullGrid.cfg.bufSize ∧ fullGrid.offset.toNat + 192 ≤ fullGrid.blklen.toNat ∧
      ∃ t, exec .decodeGrid fullGrid = .next t) ∧
    (lastTile.blklen.toNat ≤ lastTile.cfg.bufSize ∧ lastTile.len.toNat = 24 ∧
      lastTile.offset.toNat + 24 ≤ lastTile.blklen.toNat ∧ ∃ t, exec .decodeSprite lastTile = .next t) :=
  ⟨⟨by decide, _, next_after fullBlock_next⟩, ⟨by decide, by decide, _, next_after fullGrid_next⟩,
    by decide, by decide, by decide, _, next_after lastTile_next⟩

theorem witness_FailedCommandWritesOnlyStatus :
    ∃ t, issueCommand 0x02#32 (sample 4 4 0 0 []) = .next t ∧ statusErr t.status = true :=
  ⟨_, next_after (by decide), by decide⟩

theorem witness_ReissuedFailureFailsAlike :
    ∃ t, issueCommand 0x03#32 (sample 4 4 0 23 []) = .next t ∧ statusErr t.status = true :=
  ⟨_, next_after (by decide), by decide⟩

/-- The error, the fault (vector U8) and the completion of `UNSCRAMBLE`, each at its bound. -/
theorem witness_UnscrambleXorsEveryByteOfTheBlock :
    (sample 2 3 0 0 []).cfg.bufSize < (sample 2 3 0 0 []).blklen.toNat ∧
    ((sample 4 4 0 0 (filled 3 0#8)).blklen.toNat ≤ (sample 4 4 0 0 (filled 3 0#8)).cfg.bufSize ∧
      ∃ k, k < (sample 4 4 0 0 (filled 3 0#8)).blklen.toNat ∧
        Memory.read (sample 4 4 0 0 (filled 3 0#8)).buf k = none) ∧
    (fullBlock.blklen.toNat ≤ fullBlock.cfg.bufSize ∧
      (∀ k, k < fullBlock.blklen.toNat → Memory.read fullBlock.buf k ≠ none) ∧
      1 < fullBlock.blklen.toNat ∧ Memory.read fullBlock.buf 1 = some 0x41#8 ∧ fullBlock.blklen.toNat ≤ 2) :=
  ⟨by decide, ⟨by decide, 3, by decide, by decide⟩, by decide⟩

theorem witness_UnscrambleTwiceRestoresTheBlock :
    ∃ t s2 : State, exec .unscramble fullBlock = .next t ∧ s2.cfg = fullBlock.cfg ∧ s2.blklen = fullBlock.blklen ∧
      ∀ a, a < fullBlock.blklen.toNat → Memory.read s2.buf a = Memory.read t.buf a :=
  ⟨_, after (exec .unscramble fullBlock), next_after fullBlock_next, by decide, by decide, fun _ _ => rfl⟩

theorem witness_KeystreamCounterMatchesPosition : (List.replicate 257 0x5A#8)[256]? = some 0x5A#8 := by decide +kernel

theorem witness_UnscramblePreservesLength :
    ∃ t, exec .unscramble fullBlock = .next t ∧ t.status = 0x01#32 ∧ fullBlock.blklen.toNat ≤ 2 :=
  ⟨_, next_after fullBlock_next, by decide, by decide⟩

theorem witness_DescrambleOnceOverTheWholeBlock : (2 : Nat) ≤ [0x41#8, 0x42#8].length := by decide

theorem witness_HostWritesAreStoredAsWritten :
    (1 < fullBlock.cfg.bufSize ∧ (255 : Nat) ≤ 255 ∧ ∃ t, exec .unscramble fullBlock = .next t) ∧
    ∃ u t, performAccess (.wrb 1 255) fullBlock = .next u ∧ exec .unscramble u = .next t ∧ t.status = 0x01#32 ∧
      1 < fullBlock.blklen.toNat :=
  ⟨⟨by decide, by decide, _, next_after fullBlock_next⟩, after (performAccess (.wrb 1 255) fullBlock), _,
    next_after (by decide), next_after (by decide), by decide, by decide⟩

/-- The errors (vectors G13, G14), the fault (vector G15) and the completion of `DECODE_GRID`, each at its bound. -/
theorem witness_DecodeGridReadsEveryCellFromItsByte :
    ((sample 65536 0x19F 0xE0 0 []).blklen.toNat < (sample 65536 0x19F 0xE0 0 []).offset.toNat + 192) ∧
    ((sample 65536 10 0xFFFFFFFF 0 []).blklen.toNat < (sample 65536 10 0xFFFFFFFF 0 []).offset.toNat + 192) ∧
    ((sample 192 193 0 0 []).cfg.bufSize < (sample 192 193 0 0 []).blklen.toNat) ∧
    ((sample 192 192 0 0 (filled 191 0#8)).blklen.toNat ≤ (sample 192 192 0 0 (filled 191 0#8)).cfg.bufSize ∧
      (sample 192 192 0 0 (filled 191 0#8)).offset.toNat + 192 ≤ (sample 192 192 0 0 (filled 191 0#8)).blklen.toNat ∧
      Memory.read (sample 192 192 0 0 (filled 191 0#8)).buf
        ((sample 192 192 0 0 (filled 191 0#8)).offset.toNat + 191) = none) ∧
    (fullGrid.blklen.toNat ≤ fullGrid.cfg.bufSize ∧ fullGrid.offset.toNat + 192 ≤ fullGrid.blklen.toNat ∧
      (∀ k, k < 192 → Memory.read fullGrid.buf (fullGrid.offset.toNat + k) ≠ none) ∧
      Memory.read fullGrid.buf (fullGrid.offset.toNat + (47 / 8 * 32 + 47 % 8) + 8 * (31 / 8)) = some 0xFF#8) := by
  decide +kernel

theorem witness_GridDependsOnlyOnItsFootprint :
    ∃ t t2, exec .decodeGrid fullGrid = .next t ∧
      exec .decodeGrid (sample 193 193 0 7 (filled 193 0xFF#8)) = .next t2 ∧ t.status = 0x01#32 ∧
      t2.status = 0x01#32 ∧ (sample 193 193 0 7 (filled 193 0xFF#8)).offset = fullGrid.offset ∧
      ∀ k, k < 192 → Memory.read (sample 193 193 0 7 (filled 193 0xFF#8)).buf (fullGrid.offset.toNat + k) =
        Memory.read fullGrid.buf (fullGrid.offset.toNat + k) :=
  ⟨_, _, next_after fullGrid_next, next_after (by decide +kernel), by decide +kernel, by decide +kernel, by decide,
    by decide +kernel⟩

theorem witness_GridRowPacksMostSignificantFirst :
    ∃ (s : State) (bs : List Byte), s.gridOut = decodeGridBytes bs :=
  ⟨State.reset.setGrid (decodeGridBytes (List.replicate 192 0xA5#8)), List.replicate 192 0xA5#8, rfl⟩

/-- The errors (vectors S7, S8), the fault (vector S11) and the completion of `DECODE_SPRITE`, each at its bound. -/
theorem witness_DecodeSpriteReadsEveryPixelFromItsByte :
    ((sample 30 31 0 24 []).cfg.bufSize < (sample 30 31 0 24 []).blklen.toNat) ∧
    ((sample 25 25 0 25 []).blklen.toNat ≤ (sample 25 25 0 25 []).cfg.bufSize ∧
      (sample 25 25 0 25 []).len.toNat ≠ 24) ∧
    ((sample 30 30 7 24 []).len.toNat = 24 ∧
      (sample 30 30 7 24 []).blklen.toNat < (sample 30 30 7 24 []).offset.toNat + 24) ∧
    ((sample 24 24 0 24 (filled 23 0#8)).blklen.toNat ≤ (sample 24 24 0 24 (filled 23 0#8)).cfg.bufSize ∧
      (sample 24 24 0 24 (filled 23 0#8)).offset.toNat + 24 ≤ (sample 24 24 0 24 (filled 23 0#8)).blklen.toNat ∧
      Memory.read (sample 24 24 0 24 (filled 23 0#8)).buf
        ((sample 24 24 0 24 (filled 23 0#8)).offset.toNat + 23) = none) ∧
    (lastTile.blklen.toNat ≤ lastTile.cfg.bufSize ∧ lastTile.len.toNat = 24 ∧
      lastTile.offset.toNat + 24 ≤ lastTile.blklen.toNat ∧
      (∀ k, k < 24 → Memory.read lastTile.buf (lastTile.offset.toNat + k) ≠ none) ∧
      Memory.read lastTile.buf (lastTile.offset.toNat + 2 * 11 + 7 / 4) = some 0xFF#8) := by
  decide +kernel

theorem witness_UniformTilesDecodeUniformly :
    (lastTile.blklen.toNat ≤ lastTile.cfg.bufSize ∧ lastTile.len = 24#32 ∧
      lastTile.offset.toNat + 24 ≤ lastTile.blklen.toNat ∧
      ∀ k, k < 24 → Memory.read lastTile.buf (lastTile.offset.toNat + k) = some 0xFF#8) ∧
    ((sample 24 24 0 24 (filled 24 0#8)).len = 24#32 ∧
      ∀ k, k < 24 → Memory.read (sample 24 24 0 24 (filled 24 0#8)).buf
        ((sample 24 24 0 24 (filled 24 0#8)).offset.toNat + k) = some 0x00#8) := by
  decide +kernel

theorem witness_CommandIsAFunctionOfItsInputs :
    ∃ s2 : State, s2 ≠ fullBlock ∧ s2.cfg = fullBlock.cfg ∧ s2.blklen = fullBlock.blklen ∧
      s2.offset = fullBlock.offset ∧ s2.len = fullBlock.len ∧
      (∀ k, k < (commandWindow .unscramble fullBlock).2 →
        Memory.read s2.buf ((commandWindow .unscramble fullBlock).1 + k) =
          Memory.read fullBlock.buf ((commandWindow .unscramble fullBlock).1 + k)) ∧
      (∃ t, exec .unscramble fullBlock = .next t ∧ t.status = 0x01#32) ∧
      isUninit (exec .unscramble (sample 2 2 0 0 [])) = true :=
  ⟨fullBlock.setStatus 0x13#32, by decide +kernel, rfl, rfl, rfl, rfl, fun _ _ => rfl,
    ⟨_, next_after fullBlock_next, by decide⟩, by decide⟩

theorem witness_CommandFrames :
    (∃ t, exec .unscramble fullBlock = .next t) ∧ (∃ t, exec .decodeGrid fullGrid = .next t) ∧
    (∃ t, exec .decodeSprite lastTile = .next t) ∧ fullBlock.blklen.toNat ≤ 2 :=
  ⟨⟨_, next_after fullBlock_next⟩, ⟨_, next_after fullGrid_next⟩, ⟨_, next_after lastTile_next⟩, by decide⟩

theorem witness_UnusedOperandsAreIgnored :
    (∃ t, exec .unscramble fullBlock = .next t) ∧ (∃ t, exec .decodeGrid fullGrid = .next t) :=
  ⟨⟨_, next_after fullBlock_next⟩, ⟨_, next_after fullGrid_next⟩⟩

theorem witness_HostByteWriteStoresOneByte : 65535 < State.reset.cfg.bufSize ∧ (255 : Nat) ≤ 255 := by decide

theorem witness_HostByteReadGivesTheByte :
    1 < fullBlock.cfg.bufSize ∧ Memory.read fullBlock.buf 1 = some 0x41#8 ∧
    65535 < State.reset.cfg.bufSize ∧ Memory.read State.reset.buf 65535 = none := by decide

theorem witness_RegisterWritesFollowTheTable :
    (0xFFFFFFFF : Nat) < 2 ^ 32 ∧
    (∀ i ∈ [0x01, 0x05, 0x0F, 0x10, 0x3F, 0x40, 0x4B, 0x4C, 0xFF], i = 0x01 ∨ (0x05 ≤ i ∧ i ≤ 0xFF)) := by decide

/-- The ranges of the register map at their bounds; a valid and an invalid result array. -/
theorem witness_RegisterReadsFollowTheTable :
    (0x10 = 0x10 + (0 : Fin 48).val ∧ 0x3F = 0x10 + (47 : Fin 48).val) ∧
    (0x40 = 0x40 + (0 : Fin 12).val ∧ 0x4B = 0x40 + (11 : Fin 12).val) ∧
    (∀ i ∈ [0x05, 0x0F, 0x4C, 0xFF], (0x05 ≤ i ∧ i ≤ 0x0F) ∨ (0x4C ≤ i ∧ i ≤ 0xFF)) ∧
    (after (exec .decodeGrid fullGrid)).gridV = true ∧ State.reset.gridV = false ∧
    (after (exec .decodeSprite lastTile)).sprV = true ∧ State.reset.sprV = false := by decide +kernel

theorem witness_StepCompletesExactlyWhereTheDutiesHold :
    writingState.pending = .access (.wrb 3 255) :: [.reset] ∧ eventSafe writingState (.access (.wrb 3 255)) :=
  ⟨rfl, by decide, by decide⟩

/-- A failed command changes `STATUS`; a reset clears `DONE`. -/
theorem witness_StatusChangesOnlyByCommands :
    (∃ t, step (withEvents State.reset [.access (.wrr 0x00 0)]) = .next t ∧ t.status ≠ State.reset.status) ∧
    (∃ t, step (withEvents (State.reset.setStatus 0x01#32) [.reset]) = .next t ∧
      statusDone (withEvents (State.reset.setStatus 0x01#32) [.reset]).status = true ∧
      statusDone t.status = false) :=
  ⟨⟨_, next_after (by decide), by decide⟩, ⟨_, next_after (by decide), by decide, by decide⟩⟩

theorem witness_BytesChangeOnlyByWrites :
    (∃ t, step writingState = .next t ∧ Memory.read t.buf 3 ≠ Memory.read writingState.buf 3) ∧
    (∃ t, step (withEvents fullBlock [.access (.wrr 0x00 1)]) = .next t ∧
      Memory.read t.buf 1 ≠ Memory.read fullBlock.buf 1) ∧
    (∃ t, step (withEvents fullBlock [.access (.rdb 1)]) = .next t) :=
  ⟨⟨_, next_after (by decide), by decide⟩, ⟨_, next_after (by decide), by decide⟩, ⟨_, next_after (by decide)⟩⟩

theorem witness_ResultsChangeOnlyBySuccessfulDecodes :
    (∃ t, step (withEvents fullGrid [.access (.wrr 0x00 2)]) = .next t ∧ t.gridV ≠ fullGrid.gridV) ∧
    (∃ t, step (withEvents lastTile [.access (.wrr 0x00 3)]) = .next t ∧ t.sprV ≠ lastTile.sprV) :=
  ⟨⟨_, next_after (by decide +kernel), by decide +kernel⟩, ⟨_, next_after (by decide +kernel), by decide +kernel⟩⟩

theorem witness_MarksAreClearedOnlyByReset :
    ∃ t, step writingState = .next t ∧ (∀ rest, writingState.pending ≠ .reset :: rest) ∧
      Memory.read writingState.buf 1 ≠ none ∧ Memory.read writingState.buf 3 = none ∧ Memory.read t.buf 3 ≠ none :=
  ⟨_, next_after (by decide), fun rest h => by simp [writingState, withEvents] at h, by decide, by decide, by decide⟩

/-- Two states that differ only in a result array that is not valid, about to read `STATUS`. -/
theorem witness_UnwrittenResultsAreNeverSeen :
    ∃ s s2 : State, s2 ≠ s ∧ s2.visible = s.visible ∧ ∃ t, step s = .next t :=
  ⟨withEvents State.reset [.access (.rdr 0x01)],
    { withEvents State.reset [.access (.rdr 0x01)] with gridOut := decodeGridBytes (List.replicate 192 0xFF#8) },
    by decide +kernel, by decide +kernel, _, next_after (by decide)⟩

theorem witness_InstancesAreIndependent :
    ∃ a b : System, (0 : Nat) ≠ 1 ∧
      System.stepAt 0 [writingState, withEvents State.reset [.access (.wrr 0x02 7)]] = .next a ∧
      System.stepAt 1 a = .next b :=
  ⟨_, _, by decide, rfl, rfl⟩

theorem witness_LevelFailsExactlyBelowItsMinimum :
    0x270 ≤ (List.replicate 0x270 0#8).length ∧ (List.replicate 0x26F 0#8).length < 0x270 := by decide +kernel

/-- Vector L9: eight distinct trapdoors. -/
theorem witness_TrapdoorsAreUnfilteredAndTablesBounded :
    let blk := block 0xE0 0xFF#8 ((List.range 8).map fun i => (0xD0 + i, BitVec.ofNat 8 i))
    ∀ i, i < 8 → ∀ j, j < 8 → blockByte blk (0xD0 + i) = blockByte blk (0xD0 + j) →
      blockByte blk (0xD8 + i) = blockByte blk (0xD8 + j) → i = j := by decide +kernel

theorem witness_GridPredicatesReadTheirBits : 0x270 ≤ (List.replicate 0x270 0xA5#8).length := by decide +kernel

/-- R194: the offsets below 0xE0 that the level decoder does not read are the ones marked so, and no others. -/
theorem test_recordOffsets :
    (List.range 0xE0).filter (fun a => !recordOffsets.contains a) =
      [0x00, 0x20, 0x40, 0x60, 0x75, 0x8A, 0x9F, 0xA0, 0xB5, 0xCA, 0xCB, 0xCC, 0xCD, 0xCE, 0xCF] ∧
    recordOffsets.length = 209 ∧ recordOffsets.Nodup := by decide +kernel

/-- The least level: 0x270 bytes in a buffer of that size. -/
def leastLevel : List Byte := List.replicate 0x270 0x11#8
def leastLevelState : State := sample 0x270 0x270 0 0 (filled 0x270 0x11#8)

theorem leastLevelState_buf : leastLevelState.buf = filled 0x270 0x11#8 := by simp only [leastLevelState, sample]

theorem leastLevel_length : leastLevel.length = 0x270 := List.length_replicate

theorem witness_CommandsComputeTheLevel :
    leastLevelState.blklen.toNat = leastLevel.length ∧ leastLevel.length ≤ leastLevelState.cfg.bufSize ∧
      0x270 ≤ leastLevel.length ∧
      ∀ k, k < leastLevel.length → Memory.read leastLevelState.buf k = leastLevel[k]? := by
  rw [leastLevel_length]
  refine ⟨by decide, by decide, Nat.le_refl _, fun k hk => ?_⟩
  rw [leastLevelState_buf, leastLevel]
  exact read_filled 0x11#8 hk

/-- Program P5: a sheet of two slots at its least length, 72. -/
theorem witness_CommandsComputeTheSheet :
    let table : SheetTable := [(0, ["a", "b"])]
    let sheet := List.replicate 72 0xFF#8
    let s := sample 72 72 0 0 (filled 72 0xFF#8)
    (0, ["a", "b"]) ∈ table ∧ ["a", "b"][1]? = some "b" ∧ (decodeSheet table sheet).isOk = true ∧
      ("b", 48) ∈ sheetSlots table ∧ s.blklen.toNat = sheet.length ∧ sheet.length ≤ s.cfg.bufSize ∧
      (∀ k, k < sheet.length → Memory.read s.buf k = sheet[k]?) ∧
      (∀ e ∈ sheetSlots table, e.1 = "b" → e.2 = 48) := by decide +kernel

/-- Each command succeeds with a read of what it wrote as the host's next access, at the last byte or row. -/
theorem witness_CommandIsOneStepSeenByTheNextRead :
    (∃ t, step (withEvents fullBlock [.access (.wrr 0x00 1), .access (.rdb 1)]) = .next t ∧ t.status = 0x01#32) ∧
    (1 < fullBlock.blklen.toNat ∧ Memory.read fullBlock.buf 1 = some 0x41#8) ∧
    (∃ t, step (withEvents fullGrid [.access (.wrr 0x00 2), .access (.rdr 0x3F)]) = .next t ∧ t.status = 0x01#32) ∧
    (∃ t, step (withEvents lastTile [.access (.wrr 0x00 3), .access (.rdr 0x4B)]) = .next t ∧ t.status = 0x01#32) ∧
    (∃ t, step (withEvents State.reset [.access (.wrr 0x00 0), .access (.rdr 0x01)]) = .next t) :=
  ⟨⟨_, next_after (by decide +kernel), by decide +kernel⟩, by decide, ⟨_, next_after (by decide +kernel), by decide +kernel⟩,
    ⟨_, next_after (by decide +kernel), by decide +kernel⟩, _, next_after (by decide +kernel)⟩

theorem witness_LoadPlacesTheBlock :
    [0x12#8, 0x34#8].length ≤ fullBlock.cfg.bufSize ∧ [0x12#8, 0x34#8].length < 2 ^ 32 := by decide

/-- R233, R234: a block too short for its client is loaded, and that is all. -/
theorem test_shortBlocksAreLoaded :
    expandLines (levelProgram [0xAB#8]).lines = [.wrb 0 0xAB, .wrr 0x02 1] ∧
    (levelProgram [0xAB#8]).error = some .malformedLevel ∧
    expandLines (sheetProgram [(0, ["a"])] [0xAB#8]).lines = [.wrb 0 0xAB, .wrr 0x02 1] ∧
    (sheetProgram [(0, ["a"])] [0xAB#8]).error = some .malformedSpriteSheet := by decide +kernel

/-- Two blocks that differ, but only at offsets that are not read. -/
theorem witness_RecordReadsAreTheTableBytes :
    (∀ a ∈ recordOffsets, blockByte (block 0xE0 0x05#8 [(0x00, 0xFF#8), (0xCF, 0xFF#8)]) a =
      blockByte (block 0xE0 0x05#8 []) a) ∧
    block 0xE0 0x05#8 [(0x00, 0xFF#8), (0xCF, 0xFF#8)] ≠ block 0xE0 0x05#8 [] := by decide +kernel

/-- `BLKLEN` first and the bytes backwards. -/
theorem witness_LoadOrderDoesNotMatter :
    [0x12#8, 0x34#8].length ≤ fullBlock.cfg.bufSize ∧ [0x12#8, 0x34#8].length < 2 ^ 32 ∧
      [.wrr 0x02 2, .wrb 1 0x34, .wrb 0 0x12].Perm (expandLines (loadProgram [0x12#8, 0x34#8])) := by decide

end Sys2Proof.Tests
end

section
/-! PROOFS. The invariant of the state: it holds after reset, and every step keeps it. -/

namespace Sys2Proof.Machine

/-! ### What each write of the state keeps of the invariant -/

/-- The invariant speaks of the parameters, `BUF`, `STATUS` and the two marks only. -/
theorem State.Inv.of_fields {s t : State} (h : s.Inv) (hcfg : t.cfg = s.cfg) (hbuf : t.buf = s.buf)
    (hstatus : t.status = s.status) (hgrid : t.gridV = s.gridV) (hspr : t.sprV = s.sprV) : t.Inv := by
  simpa only [State.Inv, hcfg, hbuf, hstatus, hgrid, hspr] using h

theorem State.Inv.setPending {s : State} (h : s.Inv) (es : List Event) : (s.setPending es).Inv :=
  h.of_fields rfl rfl rfl rfl rfl

theorem State.Inv.giveHost {s : State} (h : s.Inv) (v : HostValue) : (s.giveHost v).Inv :=
  h.of_fields rfl rfl rfl rfl rfl

theorem State.Inv.setBlklen {s : State} (h : s.Inv) (w : Word) : (s.setBlklen w).Inv :=
  h.of_fields rfl rfl rfl rfl rfl

theorem State.Inv.setOffset {s : State} (h : s.Inv) (w : Word) : (s.setOffset w).Inv :=
  h.of_fields rfl rfl rfl rfl rfl

theorem State.Inv.setLen {s : State} (h : s.Inv) (w : Word) : (s.setLen w).Inv :=
  h.of_fields rfl rfl rfl rfl rfl

/-- A byte written inside the address space keeps the invariant (R60, R161). -/
theorem State.Inv.setBuf_write {s : State} (h : s.Inv) {a : Nat} (ha : a < s.cfg.bufSize) (v : Byte) :
    (s.setBuf (Memory.write s.buf a v)).Inv := by
  obtain ⟨hcfg, hwf, hbound, hstatus, hvalid⟩ := h
  refine ⟨hcfg, Memory.wf_write a v hwf, fun c hc => ?_, hstatus, hvalid⟩
  rcases Memory.mem_write hc with rfl | hc
  · exact ha
  · exact hbound c hc

/-! ### Reset -/

theorem State.resetFor_inv {cfg : Config} (h : cfg.Valid) : (State.resetFor cfg).Inv :=
  ⟨h, List.Pairwise.nil, by simp [State.resetFor], (by decide : legalStatus 0#32), by simp [State.resetFor]⟩

/-- The reset event leaves the reset state but for the host's side (R230). -/
theorem State.Inv.applyReset {s : State} (h : s.Inv) : s.applyReset.Inv :=
  (State.resetFor_inv h.1).of_fields rfl rfl rfl rfl rfl

/-- Settles O8: no byte is listed, no mark is set and `STATUS` is 0, so only the parameters matter, and they are legal. -/
theorem resetMeetsTheInvariant : Obligations.ResetMeetsTheInvariant :=
  ⟨State.resetFor_inv (by decide), fun _ h => State.resetFor_inv h⟩

/-! ### Commands -/

/-- The `STATUS` write that ends a command (R27) makes `STATUS` legal with `DONE` set, so the marks may be set then. -/
theorem State.endCommand_inv {s : State} (hcfg : s.cfg.Valid) (hwf : Memory.wf s.buf)
    (hbound : ∀ c ∈ s.buf, c.1 < s.cfg.bufSize) (code : ErrorCode) : (s.endCommand code).Inv :=
  ⟨hcfg, hwf, hbound, legalStatus_statusWord code, fun _ => statusDone_statusWord code⟩

theorem State.Inv.endCommand {s : State} (h : s.Inv) (code : ErrorCode) : (s.endCommand code).Inv := by
  obtain ⟨hcfg, hwf, hbound, -, -⟩ := h
  exact State.endCommand_inv hcfg hwf hbound code

theorem commandEffect_wf {s : State} (h : Memory.wf s.buf) (i : Instr) (bs : List Byte) :
    Memory.wf (commandEffect i bs s).buf := by
  rcases eq_or_ne i .unscramble with rfl | hi
  · exact Memory.wf_writeRange 0 (descramble bs) h
  · rwa [commandEffect_buf hi]

/-- A command that reads its window without an error lists no address beyond `BUF_SIZE`: `UNSCRAMBLE` writes only the
block, which fits (R62, R211). -/
theorem commandEffect_bound {i : Instr} {s : State} {bs : List Byte} (h : ∀ c ∈ s.buf, c.1 < s.cfg.bufSize)
    (he : commandError i s = .success)
    (hr : Memory.readRange s.buf (commandWindow i s).1 (commandWindow i s).2 = some bs) :
    ∀ c ∈ (commandEffect i bs s).buf, c.1 < s.cfg.bufSize := by
  rcases eq_or_ne i .unscramble with rfl | hi
  · intro c hc
    have hfits : s.blklen.toNat ≤ s.cfg.bufSize := commandError_unscramble.1 he
    have hlength : (descramble bs).length = s.blklen.toNat :=
      (descramble_length bs).trans (Memory.readRange_eq_some.1 hr).1
    rcases Memory.mem_writeRange hc with ⟨-, hc⟩ | hc
    · omega
    · exact h c hc
  · rwa [commandEffect_buf hi]

/-- A successful command keeps the invariant: it sets a mark only together with `DONE` (R27, R38). -/
theorem State.Inv.endCommand_success {i : Instr} {s : State} {bs : List Byte} (h : s.Inv)
    (he : commandError i s = .success)
    (hr : Memory.readRange s.buf (commandWindow i s).1 (commandWindow i s).2 = some bs) :
    ((commandEffect i bs s).endCommand .success).Inv := by
  obtain ⟨hcfg, hwf, hbound, -, -⟩ := h
  have hsame : (commandEffect i bs s).cfg = s.cfg := commandEffect_cfg i bs s
  refine State.endCommand_inv (hsame ▸ hcfg) (commandEffect_wf hwf i bs) ?_ .success
  exact hsame ▸ commandEffect_bound hbound he hr

theorem issueCommand_inv {w : Word} {s t : State} (h : s.Inv) (hx : issueCommand w s = .next t) : t.Inv := by
  rcases issueCommand_next hx with ⟨-, rfl⟩ | ⟨i, -, -, rfl⟩ | ⟨i, bs, -, he, hr, rfl⟩
  · exact h.endCommand .illegalCommand
  · exact h.endCommand (commandError i s)
  · exact h.endCommand_success he hr

/-! ### Accesses and steps -/

theorem State.writeReg_inv {w : Word} {r : Reg} {s t : State} (h : s.Inv) (hx : s.writeReg w r = .next t) : t.Inv := by
  rcases State.writeReg_next hx with ⟨-, hx⟩ | ⟨-, rfl⟩ | ⟨-, rfl⟩ | ⟨-, rfl⟩ | rfl
  · exact issueCommand_inv h hx
  · exact h.setBlklen w
  · exact h.setOffset w
  · exact h.setLen w
  · exact h

theorem performAccess_inv {a : Access} {s t : State} (h : s.Inv) (hx : performAccess a s = .next t) : t.Inv := by
  cases a with
  | wrb a v =>
    obtain ⟨ha, -, rfl⟩ := performWrb_next hx
    exact h.setBuf_write ha (BitVec.ofNat 8 v)
  | rdb a =>
    obtain ⟨b, -, rfl⟩ := performRdb_next hx
    exact h.giveHost (.byte b)
  | wrr i v =>
    obtain ⟨r, -, -, hx⟩ := performWrr_next hx
    exact State.writeReg_inv h hx
  | rdr i =>
    obtain ⟨r, w, -, -, rfl⟩ := performRdr_next hx
    exact h.giveHost (.word w)

/-- Settles O9: a step idles, resets or performs one access, and each of these keeps the invariant. -/
theorem everyStepKeepsTheInvariant : Obligations.EveryStepKeepsTheInvariant := by
  intro s t h hx
  rcases step_cases s with ⟨-, hs⟩ | ⟨rest, -, hs⟩ | ⟨a, rest, -, hs⟩
  · cases hs.symm.trans hx
    exact h
  · cases hs.symm.trans hx
    exact (h.setPending rest).applyReset
  · exact performAccess_inv (h.setPending rest) (hs.symm.trans hx)

end Sys2Proof.Machine
end

section
/-! PROOFS. A command is a function of its operand registers and the bytes it reads (00_scope.md R2). -/

namespace Sys2Proof.Machine

/-- Reads of a range depend only on the bytes of the range. -/
theorem Memory.readRange_congr {m m' : Memory} {base n : Nat}
    (h : ∀ k, k < n → Memory.read m' (base + k) = Memory.read m (base + k)) :
    Memory.readRange m' base n = Memory.readRange m base n := by
  refine Option.ext fun bs => ?_
  rw [Memory.readRange_eq_some, Memory.readRange_eq_some]
  exact and_congr_right fun _ => forall₂_congr fun k hk => by rw [h k hk]

/-- `s` and `s2` agree on everything the command `i` reads: the parameters, the operand registers and the bytes of its
window. `commandError_eq` and `readRange_eq` tie it to the model. -/
structure SameInputs (i : Instr) (s s2 : State) : Prop where
  cfg : s2.cfg = s.cfg
  blklen : s2.blklen = s.blklen
  offset : s2.offset = s.offset
  len : s2.len = s.len
  bytes : ∀ k, k < (commandWindow i s).2 →
    Memory.read s2.buf ((commandWindow i s).1 + k) = Memory.read s.buf ((commandWindow i s).1 + k)

theorem SameInputs.commandError_eq {i : Instr} {s s2 : State} (h : SameInputs i s s2) :
    commandError i s2 = commandError i s := by
  cases i <;> simp only [commandError, h.cfg, h.blklen, h.offset, h.len]

theorem SameInputs.commandWindow_eq {i : Instr} {s s2 : State} (h : SameInputs i s s2) :
    commandWindow i s2 = commandWindow i s := by
  cases i <;> simp only [commandWindow, h.blklen, h.offset]

theorem SameInputs.readRange_eq {i : Instr} {s s2 : State} (h : SameInputs i s s2) :
    Memory.readRange s2.buf (commandWindow i s2).1 (commandWindow i s2).2 =
      Memory.readRange s.buf (commandWindow i s).1 (commandWindow i s).2 := by
  rw [h.commandWindow_eq]
  exact Memory.readRange_congr h.bytes

/-- Everything a command can do in two states with the same inputs: fail in both with one error, fault in both, or
write in both its effect on the same bytes. -/
theorem SameInputs.exec_alike {i : Instr} {s s2 : State} (h : SameInputs i s s2) :
    (∃ code, code ≠ .success ∧ exec i s = .next (s.endCommand code) ∧ exec i s2 = .next (s2.endCommand code)) ∨
    (exec i s = .fault .uninitRead ∧ exec i s2 = .fault .uninitRead) ∨
    (∃ bs, bs.length = (commandWindow i s).2 ∧
      exec i s = .next ((commandEffect i bs s).endCommand .success) ∧
      exec i s2 = .next ((commandEffect i bs s2).endCommand .success)) := by
  have herror := h.commandError_eq
  rcases exec_cases i s with ⟨he, hx⟩ | ⟨he, hw, hx⟩ | ⟨he, bs, hr, hx⟩
  · exact .inl ⟨_, he, hx, herror ▸ exec_of_error (herror ▸ he)⟩
  · have hw2 : ¬ commandWritten i s2 :=
      Memory.readRange_eq_none.1 (h.readRange_eq.trans (Memory.readRange_eq_none.2 hw))
    exact .inr (.inl ⟨hx, exec_of_unwritten (herror.trans he) hw2⟩)
  · exact .inr (.inr ⟨bs, (Memory.readRange_eq_some.1 hr).1, hx,
      exec_of_bytes (herror.trans he) (h.readRange_eq.trans hr)⟩)

/-- Inside its range a write of bytes leaves those bytes, whatever stood there. -/
theorem Memory.read_writeRange_congr (m m' : Memory) {base a : Nat} {bs : List Byte}
    (h : base ≤ a ∧ a < base + bs.length) :
    Memory.read (Memory.writeRange m' base bs) a = Memory.read (Memory.writeRange m base bs) a := by
  rw [Memory.read_writeRange, Memory.read_writeRange, if_pos h, if_pos h]

/-- Settles O31: the two states give the command the same error and the same bytes, and its results depend on these
bytes only. -/
theorem commandIsAFunctionOfItsInputs : Obligations.CommandIsAFunctionOfItsInputs := by
  intro i s s2 hcfg hblklen hoffset hlen hbytes
  have hsame : SameInputs i s s2 := ⟨hcfg, hblklen, hoffset, hlen, hbytes⟩
  rcases hsame.exec_alike with ⟨code, hcode, hx, hx2⟩ | ⟨hx, hx2⟩ | ⟨bs, hbs, hx, hx2⟩ <;> rw [hx, hx2]
  · refine ⟨nofun, fun t ht => ?_⟩
    cases ht
    exact ⟨_, rfl, rfl, fun hone => absurd (statusWord_eq_one.1 hone) hcode⟩
  · exact ⟨fun _ hf => hf, nofun⟩
  · refine ⟨nofun, fun t ht => ?_⟩
    cases ht
    refine ⟨_, rfl, rfl, fun _ => ⟨?_, ?_, ?_⟩⟩
    · rintro rfl a ha
      refine Memory.read_writeRange_congr s.buf s2.buf ⟨Nat.zero_le a, ?_⟩
      rw [descramble_length, hbs, Nat.zero_add]
      exact ha
    · rintro rfl
      simp
    · rintro rfl
      simp

end Sys2Proof.Machine
end

section
/-! PROOFS. The result arrays behind clear marks are never seen (log entry 4): a step from a state and a step from what is
visible of it end in outcomes of which the same is visible. -/

namespace Sys2Proof.Machine

/-! ### What is visible of a state -/

@[simp] theorem State.visible_cfg (s : State) : s.visible.cfg = s.cfg := rfl
@[simp] theorem State.visible_status (s : State) : s.visible.status = s.status := rfl
@[simp] theorem State.visible_blklen (s : State) : s.visible.blklen = s.blklen := rfl
@[simp] theorem State.visible_offset (s : State) : s.visible.offset = s.offset := rfl
@[simp] theorem State.visible_len (s : State) : s.visible.len = s.len := rfl
@[simp] theorem State.visible_buf (s : State) : s.visible.buf = s.buf := rfl
@[simp] theorem State.visible_gridV (s : State) : s.visible.gridV = s.gridV := rfl
@[simp] theorem State.visible_sprV (s : State) : s.visible.sprV = s.sprV := rfl
@[simp] theorem State.visible_pending (s : State) : s.visible.pending = s.pending := rfl

theorem State.visible_gridOut {s : State} (h : s.gridV = true) : s.visible.gridOut = s.gridOut := if_pos h

theorem State.visible_sprOut {s : State} (h : s.sprV = true) : s.visible.sprOut = s.sprOut := if_pos h

@[simp] theorem State.visible_visible (s : State) : s.visible.visible = s.visible := by
  cases hg : s.gridV <;> cases hp : s.sprV <;> simp [State.visible, hg, hp]

/-! Updates of the other fields leave the result arrays, so they commute with `visible`. -/

theorem State.visible_setPending (s : State) (es : List Event) :
    s.visible.setPending es = (s.setPending es).visible := rfl
theorem State.visible_setBuf (s : State) (m : Memory) : s.visible.setBuf m = (s.setBuf m).visible := rfl
theorem State.visible_setBlklen (s : State) (w : Word) : s.visible.setBlklen w = (s.setBlklen w).visible := rfl
theorem State.visible_setOffset (s : State) (w : Word) : s.visible.setOffset w = (s.setOffset w).visible := rfl
theorem State.visible_setLen (s : State) (w : Word) : s.visible.setLen w = (s.setLen w).visible := rfl
theorem State.visible_giveHost (s : State) (v : HostValue) : s.visible.giveHost v = (s.giveHost v).visible := rfl
theorem State.visible_endCommand (s : State) (code : ErrorCode) :
    s.visible.endCommand code = (s.endCommand code).visible := rfl

/-- A reset replaces both result arrays, whatever they held. -/
theorem State.visible_applyReset (s : State) : s.visible.applyReset = s.applyReset := rfl

/-- A result array that is written whole shows nothing of what it held. -/
theorem State.visible_setGrid (s : State) (g : Grid) : (s.visible.setGrid g).visible = (s.setGrid g).visible := by
  cases hp : s.sprV <;> simp [State.visible, State.setGrid, hp]

theorem State.visible_setSprite (s : State) (p : Sprite) :
    (s.visible.setSprite p).visible = (s.setSprite p).visible := by
  cases hg : s.gridV <;> simp [State.visible, State.setSprite, hg]

/-- The bytes' image is a variable in the lemmas this cites, so it is never unfolded. -/
theorem commandEffect_visible (i : Instr) (bs : List Byte) (s : State) :
    (commandEffect i bs s.visible).visible = (commandEffect i bs s).visible := by
  cases i with
  | unscramble => exact (s.writeBytes 0 (descramble bs)).visible_visible
  | decodeGrid => exact s.visible_setGrid (decodeGridBytes bs)
  | decodeSprite => exact s.visible_setSprite (decodeSpriteBytes bs)

/-! What a command reads is visible. -/

@[simp] theorem commandError_visible (i : Instr) (s : State) : commandError i s.visible = commandError i s := by
  cases i <;> rfl

@[simp] theorem commandWindow_visible (i : Instr) (s : State) : commandWindow i s.visible = commandWindow i s := by
  cases i <;> rfl

/-- A register read gives back only what is visible (R165). -/
@[simp] theorem State.readReg_visible (s : State) (r : Reg) : s.visible.readReg r = s.readReg r := by
  cases r with
  | gridRow r =>
    cases hg : s.gridV with
    | false => simp [State.readReg, hg]
    | true => simp [State.readReg, State.gridRowWord, State.visible_gridOut, hg]
  | sprRow r =>
    cases hp : s.sprV with
    | false => simp [State.readReg, hp]
    | true => simp [State.readReg, State.sprRowWord, State.visible_sprOut, hp]
  | _ => rfl

/-! ### What is visible of an outcome -/

/-- An outcome with what is visible of its next state. -/
def seen : Host.Outcome State Fault Refusal → Host.Outcome State Fault Refusal
  | .next s => .next s.visible
  | .fault f => .fault f
  | .refused r => .refused r

@[simp] theorem seen_next (s : State) : seen (.next s) = .next s.visible := rfl
@[simp] theorem seen_fault (f : Fault) : seen (.fault f) = .fault f := rfl
@[simp] theorem seen_refused (r : Refusal) : seen (.refused r) = .refused r := rfl

theorem seen_eq_next {o : Host.Outcome State Fault Refusal} {s : State} :
    seen o = .next s ↔ ∃ t, o = .next t ∧ t.visible = s := by
  cases o <;> simp

theorem seen_eq_fault {o : Host.Outcome State Fault Refusal} {f : Fault} : seen o = .fault f ↔ o = .fault f := by
  cases o <;> simp

theorem seen_eq_refused {o : Host.Outcome State Fault Refusal} {r : Refusal} :
    seen o = .refused r ↔ o = .refused r := by
  cases o <;> simp

/-! ### Commands, accesses and steps -/

theorem exec_visible (i : Instr) (s : State) : seen (exec i s.visible) = seen (exec i s) := by
  rcases exec_cases i s with ⟨he, hx⟩ | ⟨he, hw, hx⟩ | ⟨he, bs, hr, hx⟩ <;> rw [hx]
  · have hx2 := exec_of_error (s := s.visible) ((commandError_visible i s).trans_ne he)
    rw [hx2, commandError_visible, State.visible_endCommand, seen_next, State.visible_visible, seen_next]
  · have hw2 : ¬ commandWritten i s.visible := by simpa using hw
    rw [exec_of_unwritten ((commandError_visible i s).trans he) hw2]
  · have hr2 : Memory.readRange s.visible.buf (commandWindow i s.visible).1 (commandWindow i s.visible).2 = some bs := by
      simpa using hr
    rw [exec_of_bytes ((commandError_visible i s).trans he) hr2, seen_next, seen_next, ← State.visible_endCommand,
      ← State.visible_endCommand, commandEffect_visible]

theorem issueCommand_visible (w : Word) (s : State) :
    seen (issueCommand w s.visible) = seen (issueCommand w s) := by
  unfold issueCommand
  split
  · exact exec_visible _ s
  · exact congrArg Host.Outcome.next (s.endCommand .illegalCommand).visible_visible

theorem State.writeReg_visible (s : State) (w : Word) (r : Reg) :
    seen (s.visible.writeReg w r) = seen (s.writeReg w r) := by
  cases r with
  | cmd => exact issueCommand_visible w s
  | blklen => exact congrArg Host.Outcome.next (s.setBlklen w).visible_visible
  | offset => exact congrArg Host.Outcome.next (s.setOffset w).visible_visible
  | len => exact congrArg Host.Outcome.next (s.setLen w).visible_visible
  | _ => exact congrArg Host.Outcome.next s.visible_visible

theorem performAccess_visible (a : Access) (s : State) :
    seen (performAccess a s.visible) = seen (performAccess a s) := by
  cases a with
  | wrb a v =>
    by_cases ha : s.cfg.bufSize ≤ a <;> by_cases hv : 255 < v <;> simp [performWrb, State.visible_setBuf, ha, hv]
  | rdb a =>
    by_cases ha : s.cfg.bufSize ≤ a
    · simp [performRdb, ha]
    · cases hr : Memory.read s.buf a <;> simp [performRdb, State.visible_giveHost, ha, hr]
  | wrr i v =>
    simp only [performAccess_wrr, performWrr]
    cases Reg.ofIndex i with
    | none => rfl
    | some r =>
      dsimp only
      split_ifs
      · rfl
      · exact s.writeReg_visible (BitVec.ofNat 32 v) r
  | rdr i =>
    simp only [performAccess_rdr, performRdr, State.readReg_visible, State.visible_giveHost]
    cases Reg.ofIndex i with
    | none => rfl
    | some r => cases hr : s.readReg r <;> simp [hr]

theorem performEvent_visible (e : Event) (s : State) :
    seen (performEvent e s.visible) = seen (performEvent e s) := by
  cases e with
  | access a => exact performAccess_visible a s
  | reset => exact congrArg (fun t => seen (.next t)) s.visible_applyReset

/-- What is visible after a step depends only on what is visible before it. -/
theorem step_visible (s : State) : seen (step s.visible) = seen (step s) := by
  cases h : s.pending with
  | nil => rw [step_idle h, step_idle (s := s.visible) h, seen_next, seen_next, State.visible_visible]
  | cons e rest =>
    rw [step_event h, step_event (s := s.visible) h, State.visible_setPending, performEvent_visible]

/-- Settles O44: both steps show what the step from their common visible part shows. -/
theorem unwrittenResultsAreNeverSeen : Obligations.UnwrittenResultsAreNeverSeen := by
  intro s s2 h
  have hsame : seen (step s2) = seen (step s) := by rw [← step_visible s2, h, step_visible s]
  refine ⟨fun t ht => ?_, fun f hf => ?_, fun r hr => ?_⟩
  · exact seen_eq_next.1 (hsame.trans (congrArg seen ht))
  · exact seen_eq_fault.1 (hsame.trans (congrArg seen hf))
  · exact seen_eq_refused.1 (hsame.trans (congrArg seen hr))

end Sys2Proof.Machine
end

section
/-! PROOFS. What a command writes: its `STATUS` word (R26, R27), its frame (R22 to R24, R28, R62), and where it faults
(R38). -/

namespace Sys2Proof.Machine

/-! ### The `STATUS` word of a command -/

/-- The word R27 writes, as the sum of its fields. -/
theorem statusWord_eq_ofNat (code : ErrorCode) :
    statusWord code =
      BitVec.ofNat 32 ((code.bits.toNat <<< 4) ||| ((if code = .success then 0 else 1) <<< 1) ||| 1) := by
  cases code <;> decide

/-- The code the word written to `CMD` ends with: that of its command, or `ILLEGAL_COMMAND` (R82, R211). -/
def issueError (w : Word) (s : State) : ErrorCode :=
  match decode w with
  | .ok i => commandError i s
  | .error _ => .illegalCommand

theorem issueError_ok {w : Word} {i : Instr} (h : decode w = .ok i) (s : State) :
    issueError w s = commandError i s := by simp only [issueError, h]

theorem issueError_error {w : Word} {e : DecodeError} (h : decode w = .error e) (s : State) :
    issueError w s = .illegalCommand := by simp only [issueError, h]

/-- Every command that completes ends with the `STATUS` word of its own code (R27). -/
theorem issueCommand_status {w : Word} {s t : State} (h : issueCommand w s = .next t) :
    t.status = statusWord (issueError w s) := by
  rcases issueCommand_next h with ⟨⟨e, hd⟩, rfl⟩ | ⟨i, hd, -, rfl⟩ | ⟨i, bs, hd, he, -, rfl⟩
  · rw [issueError_error hd, State.endCommand_status]
  · rw [issueError_ok hd, State.endCommand_status]
  · rw [issueError_ok hd, State.endCommand_status, he]

theorem State.endCommand_setStatus (s : State) (x : Word) (code : ErrorCode) :
    (s.setStatus x).endCommand code = s.endCommand code := rfl

/-- No command reads `STATUS`, and every command that completes overwrites it. -/
theorem exec_setStatus (i : Instr) (s : State) (x : Word) : exec i (s.setStatus x) = exec i s := by
  have herror : commandError i (s.setStatus x) = commandError i s := commandError_setStatus i s x
  rcases exec_cases i s with ⟨he, hx⟩ | ⟨he, hw, hx⟩ | ⟨he, bs, hr, hx⟩ <;> rw [hx]
  · rw [exec_of_error (herror.trans_ne he), herror, State.endCommand_setStatus]
  · exact exec_of_unwritten (herror.trans he) (by simpa using hw)
  · rw [exec_of_bytes (bs := bs) (herror.trans he) (by simpa using hr), commandEffect_setStatus,
      State.endCommand_setStatus]

theorem issueCommand_setStatus (w : Word) (s : State) (x : Word) :
    issueCommand w (s.setStatus x) = issueCommand w s := by
  unfold issueCommand
  split
  · exact exec_setStatus _ s x
  · rfl

/-- Settles O11: the code of each way a command can complete, and independence of the earlier `STATUS`. -/
theorem everyCommandRecordsItsOutcome : Obligations.EveryCommandRecordsItsOutcome := by
  refine ⟨fun w s t h => ⟨issueError w s, ?_, ?_⟩, rfl, fun w s t x h => ?_⟩
  · rfl
  · rw [issueCommand_status h, statusWord_eq_ofNat]
  · rw [issueCommand_setStatus, h]

/-- The fields of the word R27 writes: `DONE`, the reserved bits, and `ERR` and `ECODE` as R26 and R210 pair them. -/
theorem statusWord_fields (code : ErrorCode) :
    (statusWord code).extractLsb' 2 2 = 0#2 ∧ (statusWord code).extractLsb' 8 24 = 0#24 ∧
    ((statusErr (statusWord code) = true ∧ statusEcode (statusWord code) ∈ [1#4, 2#4, 3#4]) ∨
      (statusErr (statusWord code) = false ∧ statusEcode (statusWord code) = 0#4)) := by
  cases code <;> decide

/-- Settles O12: `STATUS` is the word of one of the four codes, and each has these fields. -/
theorem statusReportsSuccessOrOneOfThreeCodes : Obligations.StatusReportsSuccessOrOneOfThreeCodes := by
  intro w s t h
  rw [issueCommand_status h]
  exact ⟨statusDone_statusWord _, statusWord_fields _⟩

/-! ### Faults -/

theorem not_commandWritten_iff {i : Instr} {s : State} :
    ¬ commandWritten i s ↔
      ∃ k, k < (commandWindow i s).2 ∧ Memory.read s.buf ((commandWindow i s).1 + k) = none := by
  simp

theorem exec_eq_fault {i : Instr} {s : State} :
    exec i s = .fault .uninitRead ↔ commandError i s = .success ∧ ¬ commandWritten i s := by
  refine ⟨fun h => ?_, fun ⟨he, hw⟩ => exec_of_unwritten he hw⟩
  rcases exec_cases i s with ⟨-, hx⟩ | ⟨he, hw, -⟩ | ⟨-, bs, -, hx⟩
  · cases hx.symm.trans h
  · exact ⟨he, hw⟩
  · cases hx.symm.trans h

theorem exec_ne_refused (i : Instr) (s : State) (r : Refusal) : exec i s ≠ .refused r := by
  rcases exec_cases i s with ⟨-, hx⟩ | ⟨-, -, hx⟩ | ⟨-, bs, -, hx⟩ <;> rw [hx] <;> nofun

/-- Settles O16: of the three ways a command can end only one is a fault, and none is a refusal. -/
theorem commandFaultsExactlyOnUnwrittenBytes : Obligations.CommandFaultsExactlyOnUnwrittenBytes :=
  ⟨fun _ _ => exec_eq_fault.trans (and_congr_right' not_commandWritten_iff), exec_ne_refused⟩

/-! ### Frames -/

/-- Only `DECODE_GRID` writes `GRIDOUT` and its mark. -/
theorem commandEffect_grid {i : Instr} (h : i ≠ .decodeGrid) (bs : List Byte) (t : State) :
    (commandEffect i bs t).gridOut = t.gridOut ∧ (commandEffect i bs t).gridV = t.gridV := by
  cases i <;> simp_all

/-- Only `DECODE_SPRITE` writes `SPROUT` and its mark. -/
theorem commandEffect_sprite {i : Instr} (h : i ≠ .decodeSprite) (bs : List Byte) (t : State) :
    (commandEffect i bs t).sprOut = t.sprOut ∧ (commandEffect i bs t).sprV = t.sprV := by
  cases i <;> simp_all

/-- A command on the bytes it has read writes no byte of `BUF` from `BLKLEN` on (R62). -/
theorem commandEffect_read_beyond {i : Instr} {s : State} {bs : List Byte} {a : Nat}
    (hr : Memory.readRange s.buf (commandWindow i s).1 (commandWindow i s).2 = some bs) (ha : s.blklen.toNat ≤ a) :
    Memory.read (commandEffect i bs s).buf a = Memory.read s.buf a := by
  rcases eq_or_ne i .unscramble with rfl | hi
  · have hlength : bs.length = s.blklen.toNat := (Memory.readRange_eq_some.1 hr).1
    rw [commandEffect_unscramble, State.writeBytes_buf, Memory.read_writeRange, if_neg]
    rw [descramble_length]
    omega
  · rw [commandEffect_buf hi]

/-- Settles O32: a failed command writes `STATUS` only, and a successful one its effect. -/
theorem commandFrames : Obligations.CommandFrames := by
  intro i s t h
  rcases exec_cases i s with ⟨-, hx⟩ | ⟨-, -, hx⟩ | ⟨-, bs, hr, hx⟩ <;> cases hx.symm.trans h
  · simp
  · refine ⟨by simp, by simp, by simp, by simp, by simp, by simp, fun hi => ?_, fun a ha => ?_, fun hi => ?_,
      fun hi => ?_⟩
    · exact commandEffect_buf hi bs s
    · exact commandEffect_read_beyond hr ha
    · exact commandEffect_grid hi bs s
    · exact commandEffect_sprite hi bs s

end Sys2Proof.Machine
end

section
/-! PROOFS. The readout words pack a row most significant first (R31, R34): both are digits in a base, 2 for `GRIDROW` and 4
for `SPRROW`. -/

namespace Sys2Proof.Machine

/-! ### Digits packed into a word -/

/-- The word of `n` digits in base `b`, the first most significant. `gridRowWord_eq` and `sprRowWord_eq` say that the readout
registers are such words. -/
def packedWord (b n : Nat) (g : Fin n → Nat) : Word :=
  BitVec.ofNat 32 ((List.finRange n).map fun c => g c * b ^ (n - 1 - c.val)).sum

section
variable {b n : Nat} {g : Fin n → Nat} (hb : 0 < b) (hn : b ^ n ≤ 2 ^ 32) (hg : ∀ c, g c < b)
include hb hg

/-- The digits stay below the base where `packDigits` continues them with zeros. -/
theorem digits_lt (c : Nat) : (if h : c < n then g ⟨c, h⟩ else 0) < b := by
  split_ifs
  · exact hg _
  · exact hb

include hn

theorem packedWord_toNat_eq_packDigits :
    (packedWord b n g).toNat = packDigits b n fun c => if h : c < n then g ⟨c, h⟩ else 0 := by
  rw [packedWord, BitVec.toNat_ofNat, sum_finRange_eq_packDigits]
  exact Nat.mod_eq_of_lt ((packDigits_lt hb n (digits_lt hb hg)).trans_le hn)

theorem packedWord_toNat : (packedWord b n g).toNat = ∑ c : Fin n, g c * b ^ (n - 1 - c.val) := by
  rw [packedWord_toNat_eq_packDigits hb hn hg, ← sum_finRange_eq_packDigits, Fin.sum_univ_def]

theorem packedWord_toNat_lt : (packedWord b n g).toNat < b ^ n := by
  rw [packedWord_toNat_eq_packDigits hb hn hg]
  exact packDigits_lt hb n (digits_lt hb hg)

theorem packedWord_digit (c : Fin n) : (packedWord b n g).toNat / b ^ (n - 1 - c.val) % b = g c := by
  rw [packedWord_toNat_eq_packDigits hb hn hg, packDigits_digit hb c.isLt (digits_lt hb hg), dif_pos c.isLt]

end

/-! ### `GRIDROW` -/

theorem State.gridRowWord_eq (s : State) (r : Fin 48) :
    s.gridRowWord r = packedWord 2 32 fun c => (s.gridOut[r][c]).toNat := by
  simp only [State.gridRowWord, packedWord, Nat.shiftLeft_eq]

/-- Column `c` is bit `31 - c` (R31). -/
theorem State.gridRowWord_getLsbD (s : State) (r : Fin 48) (c : Fin 32) :
    (s.gridRowWord r).getLsbD (31 - c.val) = s.gridOut[r][c] := by
  have hdigit : (s.gridRowWord r).toNat / 2 ^ (31 - c.val) % 2 = (s.gridOut[r][c]).toNat := by
    rw [State.gridRowWord_eq]
    exact packedWord_digit (by decide) (by decide) (fun c => Bool.toNat_lt _) c
  rw [← BitVec.testBit_toNat, Nat.testBit_eq_decide_div_mod_eq, hdigit]
  cases s.gridOut[r][c] <;> rfl

/-- Four bytes joined, the byte at 0 most significant: bit `31 - c` is bit `7 - c mod 8` of the byte of group
`8 * (c div 8)`. -/
theorem getLsbD_fourBytes (f : Nat → Byte) {c : Nat} (hc : c < 32) :
    (f 0 ++ f 8 ++ f 16 ++ f 24).getLsbD (31 - c) = (f (8 * (c / 8))).getLsbD (7 - c % 8) := by
  obtain ⟨q, b, hq, hb, rfl⟩ : ∃ q b, q < 4 ∧ b < 8 ∧ c = 8 * q + b := ⟨c / 8, c % 8, by omega, by omega, by omega⟩
  have hgroup : (8 * q + b) / 8 = q := by omega
  have hbit : (8 * q + b) % 8 = b := by omega
  rw [hgroup, hbit]
  simp only [BitVec.getLsbD_append]
  interval_cases q
  · rw [if_neg (by omega), if_neg (by omega), if_neg (by omega)]
    congr 1
    omega
  · rw [if_neg (by omega), if_neg (by omega), if_pos (by omega)]
    congr 1
    omega
  · rw [if_neg (by omega), if_pos (by omega)]
    congr 1
    omega
  · rw [if_pos (by omega)]
    congr 1
    omega

/-- A cell of a decoded grid is a bit of its group's byte (R120, R125). -/
theorem gridCell_eq_getLsbD (bs : List Byte) (r c : Nat) :
    gridCell bs r c = (bs.getD (gridByteOffset r (8 * (c / 8))) 0#8).getLsbD (7 - c % 8) :=
  gridBit_eq _ (Nat.mod_lt c (by decide))

/-- After a decode a row is its four source bytes in group order (R31). -/
theorem State.gridRowWord_of_decode {s : State} {bs : List Byte} (h : s.gridOut = decodeGridBytes bs) (r : Fin 48) :
    s.gridRowWord r =
      bs.getD (gridByteOffset r 0) 0#8 ++ bs.getD (gridByteOffset r 8) 0#8 ++
        bs.getD (gridByteOffset r 16) 0#8 ++ bs.getD (gridByteOffset r 24) 0#8 := by
  refine BitVec.eq_of_getLsbD_eq fun j hj => ?_
  obtain ⟨c, rfl⟩ : ∃ c : Fin 32, j = 31 - c.val := ⟨⟨31 - j, by omega⟩, by simp only; omega⟩
  rw [State.gridRowWord_getLsbD, h, decodeGridBytes_cell, gridCell_eq_getLsbD]
  exact (getLsbD_fourBytes (fun g => bs.getD (gridByteOffset r g) 0#8) c.isLt).symm

/-- Settles O26: `GRIDROW` is a word of 32 binary digits. -/
theorem gridRowPacksMostSignificantFirst : Obligations.GridRowPacksMostSignificantFirst := by
  refine ⟨fun s r => ?_, State.gridRowWord_getLsbD, fun s bs r h => State.gridRowWord_of_decode h r⟩
  rw [State.gridRowWord_eq]
  exact packedWord_toNat (by decide) (by decide) fun c => Bool.toNat_lt _

/-! ### `SPRROW` -/

/-- Weight `2^(14 - 2c)` is the weight of digit `c` of eight in base 4. -/
theorem pixelWeight_eq {c : Nat} (hc : c < 8) : 2 ^ (14 - 2 * c) = 4 ^ (8 - 1 - c) := by
  rw [show 14 - 2 * c = 2 * (8 - 1 - c) by omega, pow_mul]
  rfl

theorem State.sprRowWord_eq (s : State) (r : Fin 12) :
    s.sprRowWord r = packedWord 4 8 fun c => (s.sprOut[r][c]).toNat := by
  simp only [State.sprRowWord, packedWord, Nat.shiftLeft_eq, pixelWeight_eq (Fin.isLt _)]

/-- Settles O30: `SPRROW` is a word of 8 digits in base 4, so it stays below `2^16`. -/
theorem spriteRowPacksMostSignificantFirst : Obligations.SpriteRowPacksMostSignificantFirst := by
  refine ⟨fun s r => ?_, fun s r c => ?_, fun s r => ?_⟩ <;> rw [State.sprRowWord_eq]
  · simp only [pixelWeight_eq (Fin.isLt _)]
    exact packedWord_toNat (by decide) (by decide) fun c => (s.sprOut[r][c]).isLt
  · refine BitVec.eq_of_toNat_eq ?_
    rw [BitVec.extractLsb'_toNat, Nat.shiftRight_eq_div_pow, pixelWeight_eq c.isLt]
    exact packedWord_digit (by decide) (by decide) (fun c => (s.sprOut[r][c]).isLt) c
  · refine BitVec.eq_of_toNat_eq ?_
    have hlt : (packedWord 4 8 fun c => (s.sprOut[r][c]).toNat).toNat < 2 ^ 16 :=
      packedWord_toNat_lt (by decide) (by decide) fun c => (s.sprOut[r][c]).isLt
    rw [BitVec.extractLsb'_toNat, Nat.shiftRight_eq_div_pow, Nat.div_eq_of_lt hlt]
    rfl

end Sys2Proof.Machine
end

section
/-! PROOFS. Steps: which event runs which command (R20, R25), and what reset leaves (R40, R230). -/

namespace Sys2Proof.Machine

/-! ### The word written to `CMD` -/

theorem issueCommand_of_ok {w : Word} {i : Instr} (h : decode w = .ok i) (s : State) :
    issueCommand w s = exec i s := by simp only [issueCommand, h]

theorem issueCommand_of_error {w : Word} {e : DecodeError} (h : decode w = .error e) (s : State) :
    issueCommand w s = s.raise .illegalCommand := by simp only [issueCommand, h]

theorem decode_encode (i : Instr) : decode (encode i) = .ok i :=
  decode_eq_ok.2 ⟨rsvField_encode i, opField_encode i⟩

/-- Taking the fetched word off the queue again leaves the state as it was. -/
theorem State.setPending_withFetchWord (s : State) (nbits w : Nat) :
    (s.withFetchWord nbits w).setPending s.pending = s := rfl

theorem step_withFetchWord (s : State) (w : Word) : step (s.withFetchWord 32 w.toNat) = issueCommand w s := by
  have hw : w.toNat % 2 ^ 32 = w.toNat := Nat.mod_eq_of_lt w.isLt
  have hpending : (s.withFetchWord 32 w.toNat).pending = .access (.wrr 0x00 w.toNat) :: s.pending := by
    rw [State.withFetchWord, hw]
    rfl
  rw [step_cmd hpending w.isLt, State.setPending_withFetchWord, BitVec.ofNat_toNat, BitVec.setWidth_eq]

/-- Settles O5: a step whose next access writes `CMD` is `issueCommand`, which runs `exec` or fails by the decoder's
answer. -/
theorem stepRunsTheDecodedCommand : Obligations.StepRunsTheDecodedCommand := by
  refine ⟨fun s rest v hp hv => ⟨fun i hd => ?_, fun e hd => ?_⟩, fun s i => ?_, fun _ => rfl⟩
  · rw [step_cmd hp hv, issueCommand_of_ok hd]
  · rw [step_cmd hp hv, issueCommand_of_error hd]
  · rw [step_withFetchWord, issueCommand_of_ok (decode_encode i)]

/-! ### Reset -/

/-- Settles O7: each value is the field `State.resetFor` gives. -/
theorem resetLeavesTheStatedValues : Obligations.ResetLeavesTheStatedValues := by
  refine ⟨rfl, fun cfg => ?_⟩
  intro s
  refine ⟨rfl, ?_, ?_, ?_, rfl, rfl, rfl, rfl, fun _ => rfl, fun a => Memory.read_nil a, rfl, rfl, fun _ => rfl,
    fun _ => rfl⟩
  · show statusDone 0#32 = false
    decide
  · show statusErr 0#32 = false
    decide
  · show statusEcode 0#32 = 0#4
    decide

/-- Settles O10: the step is `applyReset` on the state without the event. -/
theorem resetEventLeavesTheResetState : Obligations.ResetEventLeavesTheResetState :=
  fun _ _ h => step_event h

end Sys2Proof.Machine
end

section
/-! PROOFS. Which steps complete: those whose event names something (R163) and reads nothing unwritten (R38, R166). -/

namespace Sys2Proof.Machine

theorem exec_completes_iff {i : Instr} {s : State} :
    (∃ t, exec i s = .next t) ↔ (commandError i s = .success → commandWritten i s) := by
  rcases exec_cases i s with ⟨he, hx⟩ | ⟨he, hw, hx⟩ | ⟨he, bs, hr, hx⟩ <;> rw [hx]
  · exact iff_of_true ⟨_, rfl⟩ fun h => absurd h he
  · exact iff_of_false nofun fun h => hw (h he)
  · refine iff_of_true ⟨_, rfl⟩ fun _ => ?_
    by_contra hw
    cases hr.symm.trans (Memory.readRange_eq_none.2 hw)

theorem issueCommand_completes_iff {w : Word} {s : State} :
    (∃ t, issueCommand w s = .next t) ↔ issueSafe w s := by
  cases hd : decode w with
  | ok i =>
    rw [issueCommand_of_ok hd, exec_completes_iff]
    simp [issueSafe, hd]
  | error e =>
    rw [issueCommand_of_error hd]
    exact iff_of_true ⟨_, rfl⟩ fun i hi => by cases hd.symm.trans hi

theorem State.writeReg_completes_iff {w : Word} {r : Reg} {s : State} :
    (∃ t, s.writeReg w r = .next t) ↔ (r = .cmd → issueSafe w s) := by
  cases r with
  | cmd => simp only [State.writeReg, issueCommand_completes_iff, forall_const]
  | _ => exact iff_of_true ⟨_, rfl⟩ nofun

theorem Reg.ofIndex_eq_cmd {i : Nat} : Reg.ofIndex i = some .cmd ↔ i = 0x00 :=
  ⟨fun h => (Reg.ofIndex_eq_some h).1.symm, fun h => h ▸ Reg.ofIndex_cmd⟩

/-- An index up to 0xFF names a register (R21). -/
theorem Reg.exists_ofIndex {i : Nat} (h : i ≤ 0xFF) : ∃ r, Reg.ofIndex i = some r :=
  Option.ne_none_iff_exists'.1 fun hn => by
    have := Reg.ofIndex_eq_none.1 hn
    omega

/-- A register read gives a value exactly where the register is no readout, or its mark is set (R165). -/
theorem State.readReg_completes_iff {i : Nat} {r : Reg} (h : Reg.ofIndex i = some r) (s : State) :
    (∃ w, s.readReg r = .ok w) ↔
      (0x10 ≤ i ∧ i < 0x40 → s.gridV = true) ∧ (0x40 ≤ i ∧ i < 0x4C → s.sprV = true) := by
  obtain ⟨hindex, -⟩ := Reg.ofIndex_eq_some h
  cases r with
  | gridRow r =>
    have hi : i = 0x10 + r.val := hindex.symm
    have hgrid : 0x10 ≤ i ∧ i < 0x40 := by omega
    have hspr : ¬ (0x40 ≤ i ∧ i < 0x4C) := by omega
    cases hg : s.gridV <;> simp [State.readReg, hg, hgrid, hspr]
  | sprRow r =>
    have hi : i = 0x40 + r.val := hindex.symm
    have hgrid : ¬ (0x10 ≤ i ∧ i < 0x40) := by omega
    have hspr : 0x40 ≤ i ∧ i < 0x4C := by omega
    cases hp : s.sprV <;> simp [State.readReg, hp, hgrid, hspr]
  | reserved j =>
    have := Reg.reserved_of_ofIndex h
    exact iff_of_true ⟨_, rfl⟩ ⟨fun _ => by omega, fun _ => by omega⟩
  | _ =>
    have hi := hindex.symm
    simp only [Reg.index] at hi
    exact iff_of_true ⟨_, rfl⟩ ⟨fun _ => by omega, fun _ => by omega⟩

theorem performWrr_completes_iff {i v : Nat} {s : State} :
    (∃ t, performWrr i v s = .next t) ↔ accessSafe s (.wrr i v) := by
  constructor
  · rintro ⟨t, h⟩
    obtain ⟨r, hr, hv, hx⟩ := performWrr_next h
    refine ⟨(Reg.ofIndex_eq_some hr).2, hv, ?_⟩
    rintro rfl
    exact State.writeReg_completes_iff.1 ⟨t, hx⟩ (Option.some.inj hr.symm)
  · rintro ⟨hi, hv, hsafe⟩
    obtain ⟨r, hr⟩ := Reg.exists_ofIndex hi
    rw [performWrr_ok hr hv]
    refine State.writeReg_completes_iff.2 ?_
    rintro rfl
    exact hsafe (Reg.ofIndex_eq_cmd.1 hr)

theorem performRdr_completes_iff {i : Nat} {s : State} :
    (∃ t, performRdr i s = .next t) ↔ accessSafe s (.rdr i) := by
  constructor
  · rintro ⟨t, h⟩
    obtain ⟨r, w, hr, hw, -⟩ := performRdr_next h
    exact ⟨(Reg.ofIndex_eq_some hr).2, (State.readReg_completes_iff hr s).1 ⟨w, hw⟩⟩
  · rintro ⟨hi, hmarks⟩
    obtain ⟨r, hr⟩ := Reg.exists_ofIndex hi
    obtain ⟨w, hw⟩ := (State.readReg_completes_iff hr s).2 hmarks
    exact ⟨_, performRdr_ok hr hw⟩

theorem performAccess_completes_iff {a : Access} {s : State} :
    (∃ t, performAccess a s = .next t) ↔ accessSafe s a := by
  cases a with
  | wrb a v =>
    refine ⟨fun ⟨t, h⟩ => ?_, fun ⟨ha, hv⟩ => ⟨_, performWrb_ok ha hv⟩⟩
    obtain ⟨ha, hv, -⟩ := performWrb_next h
    exact ⟨ha, hv⟩
  | rdb a =>
    constructor
    · rintro ⟨t, h⟩
      obtain ⟨b, hb, -⟩ := performRdb_next h
      refine ⟨?_, by simp [hb]⟩
      by_contra ha
      cases (performRdb_badAddress (Nat.not_lt.1 ha)).symm.trans h
    · rintro ⟨ha, hr⟩
      obtain ⟨b, hb⟩ := Option.ne_none_iff_exists'.1 hr
      exact ⟨_, performRdb_ok ha hb⟩
  | wrr i v => exact performWrr_completes_iff
  | rdr i => exact performRdr_completes_iff

theorem commandWritten_setPending {i : Instr} {s : State} {es : List Event} :
    commandWritten i (s.setPending es) ↔ commandWritten i s := by
  cases i <;> rfl

/-- Whether an access is safe does not depend on what the host does next. -/
theorem accessSafe_setPending {s : State} {es : List Event} {a : Access} :
    accessSafe (s.setPending es) a ↔ accessSafe s a := by
  cases a with
  | wrr i v => simp only [accessSafe, issueSafe, commandError_setPending, commandWritten_setPending]
  | _ => rfl

/-- Settles O39: a reset always completes, and an access exactly where it is safe. -/
theorem stepCompletesExactlyWhereTheDutiesHold : Obligations.StepCompletesExactlyWhereTheDutiesHold := by
  intro s e rest hp
  rw [step_event hp]
  cases e with
  | access a => exact performAccess_completes_iff.trans accessSafe_setPending
  | reset => exact iff_of_true ⟨_, rfl⟩ trivial

end Sys2Proof.Machine
end

section
/-! PROOFS. What a step can change: `STATUS`, the result arrays and the written marks change only by a command, a host write
or a reset (R26, R30, R33, R38). -/

namespace Sys2Proof.Machine

/-! ### What a completed command changes -/

/-- A command that completes with `STATUS` 0x01 has written its effect on the bytes it read. -/
theorem issueCommand_success {w : Word} {i : Instr} {s t : State} (h : issueCommand w s = .next t)
    (hd : decode w = .ok i) (hone : t.status = 0x01#32) :
    commandError i s = .success ∧ ∃ bs,
      Memory.readRange s.buf (commandWindow i s).1 (commandWindow i s).2 = some bs ∧
      t = (commandEffect i bs s).endCommand .success := by
  have he : commandError i s = .success := by
    rw [← issueError_ok hd, ← statusWord_eq_one, ← issueCommand_status h, hone]
  rcases exec_cases i s with ⟨hne, -⟩ | ⟨-, -, hx⟩ | ⟨-, bs, hr, hx⟩
  · exact absurd he hne
  · cases hx.symm.trans ((issueCommand_of_ok hd s).symm.trans h)
  · cases hx.symm.trans ((issueCommand_of_ok hd s).symm.trans h)
    exact ⟨he, bs, hr, rfl⟩

/-- No command touches the parameters or the host's side. -/
theorem issueCommand_host {w : Word} {s t : State} (h : issueCommand w s = .next t) :
    t.cfg = s.cfg ∧ t.pending = s.pending ∧ t.reads = s.reads := by
  rcases issueCommand_next h with ⟨-, rfl⟩ | ⟨i, -, -, rfl⟩ | ⟨i, bs, -, -, -, rfl⟩ <;> simp

/-- A command leaves `GRIDOUT` and its mark, or it is a successful `DECODE_GRID` (R30). -/
theorem issueCommand_grid {w : Word} {s t : State} (h : issueCommand w s = .next t) :
    (t.gridOut = s.gridOut ∧ t.gridV = s.gridV) ∨
      (decode w = .ok .decodeGrid ∧ t.gridV = true ∧ t.status = 0x01#32) := by
  rcases issueCommand_next h with ⟨-, rfl⟩ | ⟨i, -, -, rfl⟩ | ⟨i, bs, hd, -, -, rfl⟩
  · exact .inl ⟨rfl, rfl⟩
  · exact .inl ⟨rfl, rfl⟩
  · rcases eq_or_ne i .decodeGrid with rfl | hi
    · exact .inr ⟨hd, rfl, statusWord_success⟩
    · exact .inl (commandEffect_grid hi bs s)

/-- A command leaves `SPROUT` and its mark, or it is a successful `DECODE_SPRITE` (R33). -/
theorem issueCommand_sprite {w : Word} {s t : State} (h : issueCommand w s = .next t) :
    (t.sprOut = s.sprOut ∧ t.sprV = s.sprV) ∨
      (decode w = .ok .decodeSprite ∧ t.sprV = true ∧ t.status = 0x01#32) := by
  rcases issueCommand_next h with ⟨-, rfl⟩ | ⟨i, -, -, rfl⟩ | ⟨i, bs, hd, -, -, rfl⟩
  · exact .inl ⟨rfl, rfl⟩
  · exact .inl ⟨rfl, rfl⟩
  · rcases eq_or_ne i .decodeSprite with rfl | hi
    · exact .inr ⟨hd, rfl, statusWord_success⟩
    · exact .inl (commandEffect_sprite hi bs s)

/-- A byte of the block after `UNSCRAMBLE` has read `bs`: the byte that stood there, XORed with its key (R100). -/
theorem read_writeBytes_descramble {s : State} {n : Nat} {bs : List Byte}
    (hr : Memory.readRange s.buf 0 n = some bs) {a : Nat} (ha : a < n) :
    Memory.read (s.writeBytes 0 (descramble bs)).buf a =
      (Memory.read s.buf a).map fun b => b ^^^ keyByte a := by
  obtain ⟨hlength, hbytes⟩ := Memory.readRange_eq_some.1 hr
  have hread : Memory.read s.buf a = bs[a]? := by simpa using hbytes a ha
  rw [State.writeBytes_buf, Memory.read_writeRange, if_pos (by rw [descramble_length]; omega), Nat.sub_zero,
    descramble_getElem?, hread]

/-- A command sets and clears no written mark of `BUF`: `UNSCRAMBLE` writes only bytes it has read (R62, R103). -/
theorem commandEffect_read_eq_none {i : Instr} {s : State} {bs : List Byte}
    (hr : Memory.readRange s.buf (commandWindow i s).1 (commandWindow i s).2 = some bs) (a : Nat) :
    Memory.read (commandEffect i bs s).buf a = none ↔ Memory.read s.buf a = none := by
  by_cases ha : s.blklen.toNat ≤ a
  · rw [commandEffect_read_beyond hr ha]
  · rcases eq_or_ne i .unscramble with rfl | hi
    · rw [commandEffect_unscramble, read_writeBytes_descramble hr (Nat.not_le.1 ha), Option.map_eq_none_iff]
    · rw [commandEffect_buf hi]

theorem issueCommand_read_eq_none {w : Word} {s t : State} (h : issueCommand w s = .next t) (a : Nat) :
    Memory.read t.buf a = none ↔ Memory.read s.buf a = none := by
  rcases issueCommand_next h with ⟨-, rfl⟩ | ⟨i, -, -, rfl⟩ | ⟨i, bs, -, -, hr, rfl⟩
  · rfl
  · rfl
  · exact commandEffect_read_eq_none hr a

/-! ### What a step changes -/

/-- `t` has the `STATUS`, the bytes and the results of `s`; the operand registers and the host's side may differ. -/
structure KeepsResults (s t : State) : Prop where
  status : t.status = s.status
  buf : t.buf = s.buf
  gridOut : t.gridOut = s.gridOut
  gridV : t.gridV = s.gridV
  sprOut : t.sprOut = s.sprOut
  sprV : t.sprV = s.sprV

/-- Everything an access can change of `STATUS`, the bytes and the results: one byte by a host write, what a command changes,
or nothing. -/
theorem performAccess_next {a : Access} {s t : State} (h : performAccess a s = .next t) :
    (∃ x v, a = .wrb x v ∧ t = s.setBuf (Memory.write s.buf x (BitVec.ofNat 8 v))) ∨
    (∃ v, a = .wrr 0x00 v ∧ issueCommand (BitVec.ofNat 32 v) s = .next t) ∨ KeepsResults s t := by
  cases a with
  | wrb x v =>
    obtain ⟨-, -, ht⟩ := performWrb_next h
    exact .inl ⟨x, v, rfl, ht⟩
  | rdb x =>
    obtain ⟨b, -, rfl⟩ := performRdb_next h
    exact .inr (.inr ⟨rfl, rfl, rfl, rfl, rfl, rfl⟩)
  | wrr i v =>
    obtain ⟨r, hr, -, hx⟩ := performWrr_next h
    rcases State.writeReg_next hx with ⟨rfl, hx⟩ | ⟨-, rfl⟩ | ⟨-, rfl⟩ | ⟨-, rfl⟩ | rfl
    · exact .inr (.inl ⟨v, by rw [Reg.ofIndex_eq_cmd.1 hr], hx⟩)
    all_goals exact .inr (.inr ⟨rfl, rfl, rfl, rfl, rfl, rfl⟩)
  | rdr i =>
    obtain ⟨r, w, -, -, rfl⟩ := performRdr_next h
    exact .inr (.inr ⟨rfl, rfl, rfl, rfl, rfl, rfl⟩)

/-- Everything a step can change of `STATUS`, the bytes and the results: all of them by a reset, one byte by a host write,
what a command changes, or nothing. -/
theorem step_next_cases {s t : State} (h : step s = .next t) :
    (∃ rest, s.pending = .reset :: rest) ∨
    (∃ a v rest, s.pending = .access (.wrb a v) :: rest ∧
      t = (s.setPending rest).setBuf (Memory.write s.buf a (BitVec.ofNat 8 v))) ∨
    (∃ v rest, s.pending = .access (.wrr 0x00 v) :: rest ∧
      issueCommand (BitVec.ofNat 32 v) (s.setPending rest) = .next t) ∨
    KeepsResults s t := by
  rcases step_cases s with ⟨-, hs⟩ | ⟨rest, hp, -⟩ | ⟨a, rest, hp, hs⟩
  · cases hs.symm.trans h
    exact .inr (.inr (.inr ⟨rfl, rfl, rfl, rfl, rfl, rfl⟩))
  · exact .inl ⟨rest, hp⟩
  · rcases performAccess_next (hs.symm.trans h) with ⟨x, v, rfl, ht⟩ | ⟨v, rfl, hx⟩ | hk
    · exact .inr (.inl ⟨x, v, rest, hp, ht⟩)
    · exact .inr (.inr (.inl ⟨v, rest, hp, hx⟩))
    · obtain ⟨hstatus, hbuf, hgridOut, hgridV, hsprOut, hsprV⟩ := hk
      exact .inr (.inr (.inr ⟨hstatus, hbuf, hgridOut, hgridV, hsprOut, hsprV⟩))

theorem step_status {s t : State} (h : step s = .next t) :
    t.status = s.status ∨ (∃ rest, s.pending = .reset :: rest) ∨
      (∃ v rest, s.pending = .access (.wrr 0x00 v) :: rest) ∧ statusDone t.status = true := by
  rcases step_next_cases h with hreset | ⟨a, v, rest, -, rfl⟩ | ⟨v, rest, hp, hx⟩ | hk
  · exact .inr (.inl hreset)
  · exact .inl rfl
  · exact .inr (.inr ⟨⟨v, rest, hp⟩, by rw [issueCommand_status hx, statusDone_statusWord]⟩)
  · exact .inl hk.status

/-- Settles O40: where `STATUS` changes without a reset a command has ended, and a command leaves `DONE` set. -/
theorem statusChangesOnlyByCommands : Obligations.StatusChangesOnlyByCommands := by
  intro s t h
  rcases step_status h with hsame | ⟨rest, hreset⟩ | ⟨⟨v, rest, hp⟩, hdone⟩
  · exact ⟨fun hne => absurd hsame hne, fun hs ht => by rw [hsame, hs] at ht; cases ht⟩
  · exact ⟨fun _ => ⟨rest, .inl hreset⟩, fun _ _ => ⟨rest, hreset⟩⟩
  · exact ⟨fun _ => ⟨rest, .inr ⟨v, hp⟩⟩, fun _ ht => by rw [hdone] at ht; cases ht⟩

theorem step_grid {s t : State} (h : step s = .next t) :
    (t.gridOut = s.gridOut ∧ t.gridV = s.gridV) ∨
      ∃ rest, s.pending = .reset :: rest ∨
        ∃ v, s.pending = .access (.wrr 0x00 v) :: rest ∧ decode (BitVec.ofNat 32 v) = .ok .decodeGrid ∧
          t.gridV = true ∧ t.status = 0x01#32 := by
  rcases step_next_cases h with ⟨rest, hp⟩ | ⟨a, v, rest, -, rfl⟩ | ⟨v, rest, hp, hx⟩ | hk
  · exact .inr ⟨rest, .inl hp⟩
  · exact .inl ⟨rfl, rfl⟩
  · exact (issueCommand_grid hx).imp_right fun hgrid => ⟨rest, .inr ⟨v, hp, hgrid⟩⟩
  · exact .inl ⟨hk.gridOut, hk.gridV⟩

theorem step_sprite {s t : State} (h : step s = .next t) :
    (t.sprOut = s.sprOut ∧ t.sprV = s.sprV) ∨
      ∃ rest, s.pending = .reset :: rest ∨
        ∃ v, s.pending = .access (.wrr 0x00 v) :: rest ∧ decode (BitVec.ofNat 32 v) = .ok .decodeSprite ∧
          t.sprV = true ∧ t.status = 0x01#32 := by
  rcases step_next_cases h with ⟨rest, hp⟩ | ⟨a, v, rest, -, rfl⟩ | ⟨v, rest, hp, hx⟩ | hk
  · exact .inr ⟨rest, .inl hp⟩
  · exact .inl ⟨rfl, rfl⟩
  · exact (issueCommand_sprite hx).imp_right fun hsprite => ⟨rest, .inr ⟨v, hp, hsprite⟩⟩
  · exact .inl ⟨hk.sprOut, hk.sprV⟩

/-- Settles O42: a step that is no reset and no successful decode leaves the result array and its mark. -/
theorem resultsChangeOnlyBySuccessfulDecodes : Obligations.ResultsChangeOnlyBySuccessfulDecodes :=
  fun _ _ h =>
    ⟨fun hne => (step_grid h).resolve_left (not_and_or.2 hne),
      fun hne => (step_sprite h).resolve_left (not_and_or.2 hne)⟩

/-- A step that is no reset leaves every written mark of `BUF`, but for the mark a host write sets (R38, R161). -/
theorem step_written {s t : State} (h : step s = .next t) (hreset : ∀ rest, s.pending ≠ .reset :: rest) (a : Nat) :
    (Memory.read t.buf a = none ↔ Memory.read s.buf a = none) ∨
      Memory.read t.buf a ≠ none ∧ ∃ v rest, s.pending = .access (.wrb a v) :: rest := by
  rcases step_next_cases h with ⟨rest, hp⟩ | ⟨x, v, rest, hp, rfl⟩ | ⟨v, rest, -, hx⟩ | hk
  · exact absurd hp (hreset rest)
  · rcases eq_or_ne a x with rfl | ha
    · exact .inr ⟨by simp, v, rest, hp⟩
    · exact .inl (by rw [State.setBuf_buf, Memory.read_write_other _ _ ha])
  · exact .inl (issueCommand_read_eq_none hx a)
  · exact .inl (by rw [hk.buf])

/-- Settles O43: marks of `BUF` by `step_written`, and a result array's mark is kept or set. -/
theorem marksAreClearedOnlyByReset : Obligations.MarksAreClearedOnlyByReset := by
  intro s t h hreset
  refine ⟨fun a hs => ?_, fun hs => ?_, fun hs => ?_, fun a hs ht => ?_⟩
  · rcases step_written h hreset a with hiff | ⟨ht, -⟩
    · exact hiff.not.2 hs
    · exact ht
  · rcases step_grid h with ⟨-, hsame⟩ | ⟨rest, hp | ⟨v, -, -, hset, -⟩⟩
    · exact hsame.trans hs
    · exact absurd hp (hreset rest)
    · exact hset
  · rcases step_sprite h with ⟨-, hsame⟩ | ⟨rest, hp | ⟨v, -, -, hset, -⟩⟩
    · exact hsame.trans hs
    · exact absurd hp (hreset rest)
    · exact hset
  · rcases step_written h hreset a with hiff | ⟨-, hwrite⟩
    · exact absurd (hiff.2 hs) ht
    · exact hwrite

/-! ### The read after a command -/

theorem State.readReg_setPending (s : State) (es : List Event) (r : Reg) : (s.setPending es).readReg r = s.readReg r := by
  cases r <;> rfl

/-- A step whose next access reads a register that gives a value. -/
theorem step_rdr {s : State} {i : Nat} {r : Reg} {w : Word} {rest : List Event} {vs : List HostValue}
    (hp : s.pending = .access (.rdr i) :: rest) (hvs : s.reads = vs) (hr : Reg.ofIndex i = some r)
    (hw : s.readReg r = .ok w) : step s = .next { s with pending := rest, reads := vs ++ [.word w] } := by
  subst hvs
  exact (step_event hp).trans (performRdr_ok hr ((s.readReg_setPending rest r).trans hw))

/-- A step whose next access reads a written byte. -/
theorem step_rdb {s : State} {a : Nat} {b : Byte} {rest : List Event} {vs : List HostValue}
    (hp : s.pending = .access (.rdb a) :: rest) (hvs : s.reads = vs) (ha : a < s.cfg.bufSize)
    (hr : Memory.read s.buf a = some b) : step s = .next { s with pending := rest, reads := vs ++ [.byte b] } := by
  subst hvs
  exact (step_event hp).trans (performRdb_ok (s := s.setPending rest) ha hr)

/-- A step whose next access writes `CMD` issues the command of the value written (R25), and leaves the parameters and the
rest of the host's side. -/
theorem step_cmd_next {s t : State} {v : Nat} {rest : List Event} (hp : s.pending = .access (.wrr 0x00 v) :: rest)
    (h : step s = .next t) :
    issueCommand (BitVec.ofNat 32 v) (s.setPending rest) = .next t ∧
      t.cfg = s.cfg ∧ t.pending = rest ∧ t.reads = s.reads := by
  have hwrite : performWrr 0x00 v (s.setPending rest) = .next t := (step_event hp).symm.trans h
  obtain ⟨-, -, hv, -⟩ := performWrr_next hwrite
  have hx := (performWrr_cmd hv _).symm.trans hwrite
  exact ⟨hx, issueCommand_host hx⟩

/-- Settles O54: the command's step leaves its `STATUS` and effect, which the registers and bytes then give back. -/
theorem commandIsOneStepSeenByTheNextRead : Obligations.CommandIsOneStepSeenByTheNextRead := by
  intro s t v next rest hp h gives
  obtain ⟨hx, hcfg, hpending, hreads⟩ := step_cmd_next hp h
  refine ⟨?_, ?_, fun hone => ⟨?_, ?_, ?_⟩⟩
  · rw [issueCommand_status hx, statusDone_statusWord]
  · rintro rfl
    exact step_rdr hpending hreads Reg.ofIndex_status rfl
  · rintro k b rfl rfl hk hb
    obtain ⟨he, bs, hr, ht⟩ := issueCommand_success hx (decode_encode .unscramble) hone
    have hfits : s.blklen.toNat ≤ s.cfg.bufSize := commandError_unscramble.1 he
    have hbyte : Memory.read t.buf k = some (b ^^^ keyByte k) := by
      rw [ht]
      exact (read_writeBytes_descramble hr hk).trans (congrArg _ hb)
    exact step_rdb hpending hreads (hcfg ▸ hk.trans_le hfits) hbyte
  · rintro r rfl rfl
    obtain ⟨-, bs, -, ht⟩ := issueCommand_success hx (decode_encode .decodeGrid) hone
    have hset : t.gridV = true := by rw [ht]; rfl
    exact step_rdr hpending hreads (Reg.ofIndex_gridRow r) (t.readReg_gridRow r hset)
  · rintro r rfl rfl
    obtain ⟨-, bs, -, ht⟩ := issueCommand_success hx (decode_encode .decodeSprite) hone
    have hset : t.sprV = true := by rw [ht]; rfl
    exact step_rdr hpending hreads (Reg.ofIndex_sprRow r) (t.readReg_sprRow r hset)

end Sys2Proof.Machine
end

section
/-! PROOFS. Steps take the host's events one at a time, in order (R69, R160, R221), and a byte of `BUF` changes only by a host
write, an `UNSCRAMBLE` over it, or a reset (R65, R162). -/

namespace Sys2Proof.Machine

/-! ### The host's side and the parameters -/

/-- A register write gives nothing back to the host, and leaves the parameters and what the host does next. -/
theorem State.writeReg_host {w : Word} {r : Reg} {s t : State} (h : s.writeReg w r = .next t) :
    t.cfg = s.cfg ∧ t.pending = s.pending ∧ t.reads = s.reads := by
  rcases State.writeReg_next h with ⟨-, hx⟩ | ⟨-, rfl⟩ | ⟨-, rfl⟩ | ⟨-, rfl⟩ | rfl
  · exact issueCommand_host hx
  all_goals exact ⟨rfl, rfl, rfl⟩

/-- An access leaves the parameters and what the host does next, and gives back at most one value. -/
theorem performAccess_host {a : Access} {s t : State} (h : performAccess a s = .next t) :
    t.cfg = s.cfg ∧ t.pending = s.pending ∧ ∃ vs, t.reads = s.reads ++ vs ∧ vs.length ≤ 1 := by
  cases a with
  | wrb x v =>
    obtain ⟨-, -, rfl⟩ := performWrb_next h
    exact ⟨rfl, rfl, [], by simp⟩
  | rdb x =>
    obtain ⟨b, -, rfl⟩ := performRdb_next h
    exact ⟨rfl, rfl, [.byte b], by simp⟩
  | wrr i v =>
    obtain ⟨r, -, -, hx⟩ := performWrr_next h
    obtain ⟨hcfg, hpending, hreads⟩ := State.writeReg_host hx
    exact ⟨hcfg, hpending, [], by simp [hreads]⟩
  | rdr i =>
    obtain ⟨r, w, -, -, rfl⟩ := performRdr_next h
    exact ⟨rfl, rfl, [.word w], by simp⟩

theorem performEvent_host {e : Event} {s t : State} (h : performEvent e s = .next t) :
    t.cfg = s.cfg ∧ t.pending = s.pending ∧ ∃ vs, t.reads = s.reads ++ vs ∧ vs.length ≤ 1 := by
  cases e with
  | access a => exact performAccess_host h
  | reset =>
    cases h
    exact ⟨rfl, rfl, [], by simp⟩

/-- Settles O6: a step is its event performed on the state without it, and no event touches the later ones or the
parameters. -/
theorem stepsTakeEventsInOrder : Obligations.StepsTakeEventsInOrder := by
  refine ⟨fun s e rest hp => step_event hp, fun s t e rest hp h => ?_, fun s hp => step_idle hp⟩
  obtain ⟨hcfg, hpending, hreads⟩ := performEvent_host ((step_event hp).symm.trans h)
  exact ⟨hpending, hcfg, hreads⟩

/-! ### Bytes of `BUF` -/

/-- A command that changes a byte of `BUF` is an `UNSCRAMBLE` whose block holds it (R62, R65). -/
theorem issueCommand_changes_byte {w : Word} {s t : State} {a : Nat} (h : issueCommand w s = .next t)
    (hne : Memory.read t.buf a ≠ Memory.read s.buf a) : decode w = .ok .unscramble ∧ a < s.blklen.toNat := by
  rcases issueCommand_next h with ⟨-, rfl⟩ | ⟨i, -, -, rfl⟩ | ⟨i, bs, hd, -, hr, rfl⟩
  · exact absurd rfl hne
  · exact absurd rfl hne
  · rw [State.endCommand_buf] at hne
    have hi : i = .unscramble := by
      by_contra hi
      exact hne (by rw [commandEffect_buf hi])
    have ha : a < s.blklen.toNat := by
      by_contra ha
      exact hne (commandEffect_read_beyond hr (Nat.not_lt.1 ha))
    exact ⟨hi ▸ hd, ha⟩

/-- A host read changes nothing but the values given back (R65, R162). -/
theorem step_read {s t : State} {rest : List Event} {x : Nat}
    (hp : s.pending = .access (.rdb x) :: rest ∨ s.pending = .access (.rdr x) :: rest) (h : step s = .next t) :
    t = { s with pending := rest, reads := t.reads } := by
  rcases hp with hp | hp
  · obtain ⟨b, -, rfl⟩ := performRdb_next ((step_event hp).symm.trans h)
    rfl
  · obtain ⟨r, w, -, -, rfl⟩ := performRdr_next ((step_event hp).symm.trans h)
    rfl

/-- Settles O41: a step that changes a byte is a reset, a host write to it, or a command that changes it. -/
theorem bytesChangeOnlyByWrites : Obligations.BytesChangeOnlyByWrites := by
  refine ⟨fun s t a h hne => ?_, fun s t rest x hp h => step_read hp h⟩
  rcases step_next_cases h with ⟨rest, hp⟩ | ⟨x, v, rest, hp, rfl⟩ | ⟨v, rest, hp, hx⟩ | hk
  · exact ⟨rest, .inl hp⟩
  · have hx : a = x := by
      by_contra hx
      exact hne (Memory.read_write_other _ _ hx)
    exact ⟨rest, .inr (.inl ⟨v, hx ▸ hp⟩)⟩
  · exact ⟨rest, .inr (.inr ⟨v, hp, issueCommand_changes_byte (s := s.setPending rest) hx hne⟩)⟩
  · exact absurd (by rw [hk.buf]) hne

end Sys2Proof.Machine
end

section
/-! PROOFS. A raw block loaded at `BUF[0]` (R232): what the commands do on it is what the client software computes from the
block (R74, R188, R191, R192). -/

namespace Sys2Proof.Machine

/-- `blk` stands at `BUF[0]`, and `BLKLEN` is its length (R232). `HoldsBlock.exec_next` ties it to the commands. -/
structure HoldsBlock (s : State) (blk : List Byte) : Prop where
  blklen : s.blklen.toNat = blk.length
  fits : blk.length ≤ s.cfg.bufSize
  bytes : ∀ k, k < blk.length → Memory.read s.buf k = blk[k]?

theorem HoldsBlock.setOffset {s : State} {blk : List Byte} (h : HoldsBlock s blk) (w : Word) :
    HoldsBlock (s.setOffset w) blk := ⟨h.blklen, h.fits, h.bytes⟩

theorem HoldsBlock.setLen {s : State} {blk : List Byte} (h : HoldsBlock s blk) (w : Word) :
    HoldsBlock (s.setLen w) blk := ⟨h.blklen, h.fits, h.bytes⟩

/-- A window inside the block reads the block's slice. -/
theorem HoldsBlock.readRange {s : State} {blk : List Byte} (h : HoldsBlock s blk) {base n : Nat}
    (hn : base + n ≤ blk.length) : Memory.readRange s.buf base n = some (blockSlice blk base n) := by
  refine Memory.readRange_eq_some.2 ⟨?_, fun k hk => ?_⟩
  · rw [blockSlice, List.length_take, List.length_drop]
    omega
  · rw [h.bytes (base + k) (by omega), blockSlice, List.getElem?_take_of_lt hk, List.getElem?_drop]

/-- A command without an error whose window lies inside the block completes on the block's slice. -/
theorem HoldsBlock.exec_next {s : State} {blk : List Byte} (h : HoldsBlock s blk) {i : Instr}
    (he : commandError i s = .success) (hwindow : (commandWindow i s).1 + (commandWindow i s).2 ≤ blk.length) :
    exec i s = .next ((commandEffect i (blockSlice blk (commandWindow i s).1 (commandWindow i s).2) s).endCommand
      .success) :=
  exec_of_bytes he (h.readRange hwindow)

/-- `UNSCRAMBLE` completes and leaves the descrambled block in place of the raw one (R100). -/
theorem HoldsBlock.exec_unscramble {s : State} {raw : List Byte} (h : HoldsBlock s raw) :
    ∃ t, exec .unscramble s = .next t ∧ t.status = 0x01#32 ∧ HoldsBlock t (descramble raw) := by
  have hslice : blockSlice raw 0 s.blklen.toNat = raw := by simp [blockSlice, h.blklen]
  have hx := h.exec_next (i := .unscramble) (commandError_unscramble.2 (h.blklen ▸ h.fits))
    (by simp [commandWindow, h.blklen])
  refine ⟨_, hx, statusWord_success, ?_, ?_, fun k hk => ?_⟩
  · exact h.blklen.trans (descramble_length raw).symm
  · exact (descramble_length raw).trans_le h.fits
  · simp only [commandWindow, hslice, commandEffect_unscramble, State.endCommand_buf, State.writeBytes_buf]
    rw [Memory.read_writeRange, if_pos (by omega), Nat.sub_zero]

/-- `DECODE_GRID` inside the block completes and leaves the grid of its 192 bytes (R120). -/
theorem HoldsBlock.exec_decodeGrid {s : State} {blk : List Byte} (h : HoldsBlock s blk) {off : Word}
    (hoff : off.toNat + gridBytes ≤ blk.length) :
    ∃ t, exec .decodeGrid (s.setOffset off) = .next t ∧
      t.gridOut = decodeGridBytes (blockSlice blk off.toNat gridBytes) ∧ t.status = 0x01#32 := by
  have he : commandError .decodeGrid (s.setOffset off) = .success :=
    commandError_decodeGrid.2 ⟨h.blklen ▸ h.fits, h.blklen ▸ hoff⟩
  refine ⟨_, (h.setOffset off).exec_next he hoff, ?_, statusWord_success⟩
  rw [commandEffect_decodeGrid, State.endCommand_gridOut, State.setGrid_gridOut]
  rfl

/-- `DECODE_SPRITE` inside the block, with `LEN` = 24, completes and leaves the tile of its 24 bytes (R140). -/
theorem HoldsBlock.exec_decodeSprite {s : State} {blk : List Byte} (h : HoldsBlock s blk) {off : Word}
    (hoff : off.toNat + spriteBytes ≤ blk.length) :
    ∃ t, exec .decodeSprite ((s.setOffset off).setLen 24#32) = .next t ∧
      t.sprOut = decodeSpriteBytes (blockSlice blk off.toNat spriteBytes) ∧ t.status = 0x01#32 := by
  have he : commandError .decodeSprite ((s.setOffset off).setLen 24#32) = .success :=
    commandError_decodeSprite.2 ⟨h.blklen ▸ h.fits, rfl, h.blklen ▸ hoff⟩
  refine ⟨_, ((h.setOffset off).setLen 24#32).exec_next he hoff, ?_, statusWord_success⟩
  rw [commandEffect_decodeSprite, State.endCommand_sprOut, State.setSprite_sprOut]
  rfl

theorem decodeLevel_of_le {raw : List Byte} (h : levelMinimum ≤ raw.length) :
    decodeLevel raw = .ok (levelOf (descramble raw)) := if_neg (Nat.not_lt.2 h)

/-- Settles O52: the commands work on the descrambled block, from which the level's grids and sprite are decoded. -/
theorem commandsComputeTheLevel : Obligations.CommandsComputeTheLevel := by
  intro s raw hblklen hfits hmin hbytes
  have hraw : HoldsBlock s raw := ⟨hblklen, hfits, hbytes⟩
  obtain ⟨t, ht, htstatus, hblk⟩ := hraw.exec_unscramble
  have hlength : (descramble raw).length = raw.length := descramble_length raw
  have hwall : (s.blklen - 48#32).toNat = wallBase (descramble raw).length := by
    rw [wallBase, hlength, ← hblklen]
    bv_omega
  have hsolidEnd : solidBase + gridBytes ≤ (descramble raw).length := hlength ▸ le_trans (by decide) hmin
  have hcollectableEnd : collectableBase + gridBytes ≤ (descramble raw).length := hlength ▸ le_trans (by decide) hmin
  have hwallEnd : wallBase (descramble raw).length + spriteBytes ≤ (descramble raw).length := by
    simp only [wallBase, spriteBytes]
    omega
  obtain ⟨g1, hg1, hsolid, hg1status⟩ := hblk.exec_decodeGrid (off := 0xE0#32) hsolidEnd
  obtain ⟨g2, hg2, hcollectable, hg2status⟩ := hblk.exec_decodeGrid (off := 0x1B0#32) hcollectableEnd
  obtain ⟨p, hp, hsprite, hpstatus⟩ := hblk.exec_decodeSprite (off := s.blklen - 48#32) (hwall ▸ hwallEnd)
  rw [hwall] at hsprite
  exact ⟨levelOf (descramble raw), t, g1, g2, p, decodeLevel_of_le hmin, ht,
    fun k hk => hblk.bytes k (hlength.symm ▸ hk), hg1, hsolid, hg2, hcollectable, hp, hsprite, htstatus, hg1status,
    hg2status, hpstatus⟩

end Sys2Proof.Machine
end

section
/-! PROOFS. The encoding family: the decoder (R80 to R83), the disassembler (R83), the operands a command ignores (R84) and
the pseudo-instructions (R86). -/

namespace Sys2Proof

/-! ### The three command words -/

/-- The decoder accepts a word as `i` exactly where it is the word of `i` (R81). -/
theorem decode_eq_ok_iff_eq_encode {w : Word} {i : Instr} : decode w = .ok i ↔ w = encode i := by
  constructor
  · intro h
    obtain ⟨hrsv, hop⟩ := decode_eq_ok.1 h
    rw [eq_of_fields w, hrsv, hop, encode]
  · rintro rfl
    exact Machine.decode_encode i

/-- The decoder rejects exactly the words that are no command's word (R82, R83). -/
theorem exists_decode_eq_error {w : Word} : (∃ e, decode w = .error e) ↔ ∀ i, w ≠ encode i := by
  simp only [ne_eq, ← decode_eq_ok_iff_eq_encode]
  cases decode w <;> simp

/-- The operation codes in use are 1, 2 and 3 (R81). -/
theorem exists_eq_opOf {op : BitVec 4} : (∃ i, op = opOf i) ↔ op = 0x1#4 ∨ op = 0x2#4 ∨ op = 0x3#4 := by
  constructor
  · rintro ⟨i, rfl⟩
    cases i <;> simp [opOf]
  · rintro (rfl | rfl | rfl)
    · exact ⟨.unscramble, rfl⟩
    · exact ⟨.decodeGrid, rfl⟩
    · exact ⟨.decodeSprite, rfl⟩

/-- A full mask leaves a word as it is, so `match` and `mask` of R81 compare whole words. -/
theorem and_fullMask (w : Word) : w &&& 0xFFFFFFFF#32 = w := BitVec.and_allOnes

/-- Settles O1: the decoder accepts the encoder's words, which are the three of the map, and no other. -/
theorem decodeAcceptsExactlyTheThreeWords : Obligations.DecodeAcceptsExactlyTheThreeWords := by
  refine ⟨fun w i => ?_, fun i _ => Machine.decode_encode i, fun w => ?_, rfl, rfl, rfl, fun i s => ?_⟩
  · rw [and_fullMask]
    exact decode_eq_ok_iff_eq_encode
  · simp only [decode_eq_ok, exists_and_left, exists_eq_opOf]
  · exact Machine.issueCommand_of_ok (Machine.decode_encode i) s

/-- Settles O4: the decoder evaluates each word to the listed answer. -/
theorem tableWordsDecode : Obligations.TableWordsDecode := by
  unfold Obligations.TableWordsDecode
  decide

end Sys2Proof

namespace Sys2Proof.Machine

/-! ### Illegal words -/

/-- A word with a reserved field value is no command's word (R82). -/
theorem ne_encode_of_reserved {w : Word} (h : rsvField w ≠ 0#28 ∨ opField w ∉ [0x1#4, 0x2#4, 0x3#4]) (i : Instr) :
    w ≠ encode i := by
  rintro rfl
  rcases h with hrsv | hop
  · exact hrsv (rsvField_encode i)
  · rw [opField_encode] at hop
    cases i <;> simp [opOf] at hop

/-- Settles O2: the decoder rejects such a word, and `raise` writes `STATUS` only. -/
theorem illegalWordWritesOnlyStatus : Obligations.IllegalWordWritesOnlyStatus := by
  intro w s h
  obtain ⟨e, he⟩ := exists_decode_eq_error.2 (ne_encode_of_reserved h)
  rw [issueCommand_of_error he, State.raise, State.endCommand_eq, statusWord_illegalCommand]

/-! ### The disassembler -/

@[simp] theorem hexDigits_length (k n : Nat) : (hexDigits k n).length = k := by
  induction k generalizing n with
  | zero => rfl
  | succ k ih => simp [hexDigits, ih]

/-- A printed digit reads back as its value. -/
theorem digitValue_hexDigit (n : Nat) : digitValue 16 (hexDigit n) = some (n % 16) := by
  have all : ∀ d < 16, digitValue 16 ("0123456789ABCDEF".toList.getD d '0') = some d := by decide
  exact all (n % 16) (Nat.mod_lt n (by decide))

/-- Reading one digit more, least significant last. -/
theorem digitsValue_append_digit {base acc v d : Nat} {cs : List Char} {c : Char}
    (hcs : digitsValue base acc cs = some v) (hc : digitValue base c = some d) :
    digitsValue base acc (cs ++ [c]) = some (v * base + d) := by
  induction cs generalizing acc with
  | nil =>
    cases hcs
    simp [digitsValue, hc]
  | cons x xs ih =>
    cases hx : digitValue base x with
    | none => simp [digitsValue, hx] at hcs
    | some dx =>
      simp only [digitsValue, hx, List.cons_append] at hcs ⊢
      exact ih hcs

/-- The low `k` hexadecimal digits of a number read back as the number modulo `16 ^ k`. -/
theorem digitsValue_hexDigits (k n : Nat) : digitsValue 16 0 (hexDigits k n) = some (n % 16 ^ k) := by
  induction k generalizing n with
  | zero => simp [hexDigits, digitsValue, Nat.mod_one]
  | succ k ih =>
    have hsplit : n % 16 ^ (k + 1) = n / 16 % 16 ^ k * 16 + n % 16 := by
      rw [pow_succ', Nat.mod_mul, Nat.mul_comm, Nat.add_comm]
    rw [hexDigits, digitsValue_append_digit (ih (n / 16)) (digitValue_hexDigit n), hsplit]

theorem disassemble_of_ok {w : Word} {i : Instr} (h : decode w = .ok i) : disassemble w = (mnemonic i).toList := by
  simp only [disassemble, h]

theorem disassemble_of_error {w : Word} {e : DecodeError} (h : decode w = .error e) :
    disassemble w = ".word 0x".toList ++ hexDigits 8 w.toNat := by
  simp only [disassemble, h]

/-- Settles O3: a word is a command's or is rejected, and eight digits hold every 32-bit value. -/
theorem everyWordDecodesOrIsRejectedAndPrints : Obligations.EveryWordDecodesOrIsRejectedAndPrints := by
  refine ⟨⟨rfl, rfl, rfl⟩, fun w => ?_⟩
  cases h : decode w with
  | ok i => exact .inl ⟨i, decode_eq_ok_iff_eq_encode.1 h, rfl, disassemble_of_ok h⟩
  | error e =>
    have hlt : w.toNat < 16 ^ 8 := w.isLt
    have hvalue : digitsValue 16 0 (hexDigits 8 w.toNat) = some w.toNat := by
      rw [digitsValue_hexDigits, Nat.mod_eq_of_lt hlt]
    exact .inr ⟨exists_decode_eq_error.1 ⟨e, h⟩, ⟨e, rfl⟩, _, disassemble_of_error h, hexDigits_length 8 _, hvalue⟩

/-! ### Operands a command ignores -/

/-- A change `f` of the state that a command neither reads nor overwrites: the command ends as it did, with `f` on the state
it leaves. -/
theorem exec_next_of_ignored {i : Instr} {f : State → State} {s t : State}
    (herror : commandError i (f s) = commandError i s) (hwindow : commandWindow i (f s) = commandWindow i s)
    (hbuf : (f s).buf = s.buf) (heffect : ∀ bs, commandEffect i bs (f s) = f (commandEffect i bs s))
    (hend : ∀ u code, (f u).endCommand code = f (u.endCommand code)) (h : exec i s = .next t) :
    exec i (f s) = .next (f t) := by
  rcases exec_cases i s with ⟨he, hx⟩ | ⟨-, -, hx⟩ | ⟨he, bs, hr, hx⟩ <;> cases hx.symm.trans h
  · rw [exec_of_error (herror.trans_ne he), herror, hend]
  · rw [← hwindow, ← hbuf] at hr
    rw [exec_of_bytes (herror.trans he) hr, heffect, hend]

/-- Settles O33: no error, window or effect of the two commands depends on the operands named. -/
theorem unusedOperandsAreIgnored : Obligations.UnusedOperandsAreIgnored := by
  refine fun s t o l => ⟨fun h => ?_, fun h => ?_⟩
  · exact exec_next_of_ignored (f := fun u => (u.setOffset o).setLen l) rfl rfl rfl (fun _ => rfl) (fun _ _ => rfl) h
  · exact exec_next_of_ignored (f := fun u => u.setLen l) rfl rfl rfl (fun _ => rfl) (fun _ _ => rfl) h

/-! ### Pseudo-instructions -/

/-- `fill` writes its value to each of `n` addresses from `a` on (R86). -/
theorem loadAccesses_replicate (a n v : Nat) :
    loadAccesses a (List.replicate n v) = (List.range n).map fun k => .wrb (a + k) v := by
  rw [loadAccesses_eq, List.length_replicate]
  refine List.map_congr_left fun k hk => ?_
  rw [List.getD_replicate _ (List.mem_range.1 hk)]

/-- Settles O46: `load` and `fill` write rising addresses, and the others are their lines of the table. -/
theorem pseudoInstructionsExpand : Obligations.PseudoInstructionsExpand :=
  ⟨loadAccesses_eq, loadAccesses_replicate, fun _ => rfl, rfl, fun _ => rfl, fun _ => rfl, rfl⟩

end Sys2Proof.Machine
end

section
/-! PROOFS. The descrambler family: what `UNSCRAMBLE` leaves at every address (R100, R103), that it undoes itself (R101), and
its keystream (R102). -/

namespace Sys2Proof.Machine

/-! ### The keystream -/

/-- The key is the low byte of the position. -/
theorem keyByte_eq_ofNat (i : Nat) : keyByte i = BitVec.ofNat 8 i :=
  BitVec.eq_of_toNat_eq (by simp [keyByte])

/-- The next key is the 8-bit successor: the counter of R36. -/
theorem keyByte_succ (i : Nat) : keyByte (i + 1) = keyByte i + 1#8 := by
  rw [keyByte_eq_ofNat, keyByte_eq_ofNat, BitVec.ofNat_add]

/-- The counter that stands at the key of position `i` goes on as the positions do. -/
theorem descrambleCounter_keyByte (i : Nat) (bs : List Byte) :
    descrambleCounter (keyByte i) bs = descrambleFrom i bs := by
  induction bs generalizing i with
  | nil => rfl
  | cons b bs ih => rw [descrambleCounter, descrambleFrom, ← keyByte_succ, ih]

/-- Settles O19: the counter starts at the key of position 0, and counts modulo 256 as positions do. -/
theorem keystreamCounterMatchesPosition : Obligations.KeystreamCounterMatchesPosition := by
  refine ⟨fun bs k b hb => ?_, descrambleCounter_keyByte 0⟩
  rw [descramble_getElem?, hb]
  rfl

/-! ### The bytes `UNSCRAMBLE` leaves -/

/-- What `UNSCRAMBLE` reads is the block: every byte of it must be written (R38). -/
theorem commandWritten_unscramble {s : State} :
    commandWritten .unscramble s ↔ ∀ k, k < s.blklen.toNat → Memory.read s.buf k ≠ none :=
  forall₂_congr fun k _ => by simp only [commandWindow, Nat.zero_add]

/-- Settles O17: too long a block is the only error, an unwritten byte the only fault, and otherwise the effect is
the descrambled block. -/
theorem unscrambleXorsEveryByteOfTheBlock : Obligations.UnscrambleXorsEveryByteOfTheBlock := by
  refine ⟨rfl, fun s => ⟨fun hlong => ?_, fun hfits ⟨k, hk, hnone⟩ => ?_, fun hfits hwritten => ?_⟩⟩
  · have he : commandError .unscramble s = .outOfRange := if_pos hlong
    rw [exec_of_error (by simp [he]), he, State.endCommand_eq, statusWord_outOfRange]
  · exact exec_of_unwritten (commandError_unscramble.2 hfits) fun hw => commandWritten_unscramble.1 hw k hk hnone
  · obtain ⟨bs, hr⟩ := Memory.readRange_of_written (commandWritten_unscramble.2 hwritten)
    have hx := exec_of_bytes (commandError_unscramble.2 hfits) hr
    rw [commandEffect_unscramble, State.writeBytes_success] at hx
    refine ⟨_, hx, fun k b hk hb => ?_, fun a ha => commandEffect_read_beyond hr ha⟩
    exact (read_writeBytes_descramble hr hk).trans (congrArg _ hb)

/-- A byte of the block after `UNSCRAMBLE`: XORed with its key, or as it was where the command failed (R100, R213). -/
theorem exec_unscramble_read {s t : State} (h : exec .unscramble s = .next t) {a : Nat} (ha : a < s.blklen.toNat) :
    Memory.read t.buf a =
      if commandError .unscramble s = .success then (Memory.read s.buf a).map fun b => b ^^^ keyByte a
      else Memory.read s.buf a := by
  rcases exec_cases .unscramble s with ⟨he, hx⟩ | ⟨-, -, hx⟩ | ⟨he, bs, hr, hx⟩ <;> cases hx.symm.trans h
  · rw [if_neg he, State.endCommand_buf]
  · rw [if_pos he]
    exact read_writeBytes_descramble hr ha

/-- No command sets or clears a written mark of `BUF` (R62, R103). -/
theorem exec_read_eq_none {i : Instr} {s t : State} (h : exec i s = .next t) (a : Nat) :
    Memory.read t.buf a = none ↔ Memory.read s.buf a = none :=
  issueCommand_read_eq_none ((issueCommand_of_ok (decode_encode i) s).trans h) a

/-- Settles O18: the second command has the same error and a written block, so it applies the same keys again or, like the
first, writes no byte. -/
theorem unscrambleTwiceRestoresTheBlock : Obligations.UnscrambleTwiceRestoresTheBlock := by
  intro s t s2 h hcfg hblklen hbytes
  have herror : commandError .unscramble s2 = commandError .unscramble s := by
    simp only [commandError, hcfg, hblklen]
  have hsafe : commandError .unscramble s2 = .success → commandWritten .unscramble s2 := by
    refine fun he => commandWritten_unscramble.2 fun k hk => ?_
    have hk : k < s.blklen.toNat := hblklen ▸ hk
    rw [hbytes k hk, ne_eq, exec_read_eq_none h]
    exact commandWritten_unscramble.1 (exec_completes_iff.1 ⟨t, h⟩ (herror ▸ he)) k hk
  obtain ⟨u, hu⟩ := exec_completes_iff.2 hsafe
  refine ⟨u, hu, fun a ha => ?_⟩
  rw [exec_unscramble_read hu (hblklen ▸ ha), hbytes a ha, exec_unscramble_read h ha, herror]
  split_ifs
  · simp [Option.map_map, Function.comp_def]
  · rfl

/-- The `STATUS` a command leaves says whether it succeeded (R27). -/
theorem exec_status_eq_one {i : Instr} {s t : State} (h : exec i s = .next t) :
    t.status = 0x01#32 ↔ commandError i s = .success := by
  rw [issueCommand_status ((issueCommand_of_ok (decode_encode i) s).trans h), statusWord_eq_one,
    issueError_ok (decode_encode i)]

/-- Settles O20: the command's frame and its marks, and each byte of a successful result is its own old byte with its
key. -/
theorem unscramblePreservesLength : Obligations.UnscramblePreservesLength := by
  refine ⟨fun s t h => ?_, fun s t s2 t2 h h2 hone hone2 hblklen hbytes a ha => ?_⟩
  · obtain ⟨-, hblklen, -, -, -, -, -, hbeyond, -⟩ := commandFrames .unscramble s t h
    exact ⟨hblklen, exec_read_eq_none h, hbeyond⟩
  · rw [exec_unscramble_read h ha, exec_unscramble_read h2 (hblklen ▸ ha), if_pos ((exec_status_eq_one h).1 hone),
      if_pos ((exec_status_eq_one h2).1 hone2), hbytes a ha]

end Sys2Proof.Machine
end

section
/-! PROOFS. The grid decoder's family: which byte of the window holds which cells (R122), what `DECODE_GRID` leaves (R120), and
that its result is a function of its window (R127). -/

namespace Sys2Proof.Machine

/-! ### The footprint -/

/-- The byte of row `r`, group `g`, with the strip geometry as numbers (R121). -/
theorem gridByteOffset_eq (r g : Nat) : gridByteOffset r g = r / 8 * 32 + r % 8 + g := rfl

/-- Every cell's byte lies in the window (R122). -/
theorem gridByteOffset_lt {r q : Nat} (hr : r < 48) (hq : q < 4) : gridByteOffset r (8 * q) < 192 := by
  rw [gridByteOffset_eq]
  omega

/-- Settles O24: strip, group and row within the strip are the digits of an offset in the bases 6, 4 and 8. -/
theorem gridFootprintIsABijection : Obligations.GridFootprintIsABijection := by
  refine ⟨fun t => ?_, fun r q => ?_, fun bs r q b => ?_, rfl, rfl⟩
  · rw [gridByteOffset_eq]
    omega
  · have hlt : gridByteOffset r (8 * q.val) < 192 := gridByteOffset_lt r.isLt q.isLt
    rw [gridByteOffset_eq] at hlt ⊢
    omega
  · have hgroup : (8 * q.val + b.val) / 8 = q.val := by omega
    have hbit : (8 * q.val + b.val) % 8 = b.val := by omega
    rw [gridCell_eq_getLsbD, hgroup, hbit]

/-! ### The command -/

/-- What `DECODE_GRID` reads is the 192 bytes from `OFFSET` on: each of them must be written (R38). -/
theorem commandWritten_decodeGrid {s : State} :
    commandWritten .decodeGrid s ↔ ∀ k, k < 192 → Memory.read s.buf (s.offset.toNat + k) ≠ none := Iff.rfl

/-- A decoded cell is a bit of the byte of `BUF` that stands at the cell's place in the window (R120, R125). -/
theorem decodeGridBytes_cell_of_read {m : Memory} {base : Nat} {bs : List Byte}
    (hr : Memory.readRange m base gridBytes = some bs) {r : Fin 48} {c : Fin 32} {b : Byte}
    (hb : Memory.read m (base + gridByteOffset r.val (8 * (c.val / 8))) = some b) :
    (decodeGridBytes bs)[r][c] = b.getLsbD (7 - c.val % 8) := by
  have hwindow : gridByteOffset r.val (8 * (c.val / 8)) < gridBytes := gridByteOffset_lt r.isLt (by omega)
  have hbyte : bs[gridByteOffset r.val (8 * (c.val / 8))]? = some b :=
    ((Memory.readRange_eq_some.1 hr).2 _ hwindow).symm.trans hb
  rw [decodeGridBytes_cell, gridCell_eq_getLsbD, List.getD_eq_getElem?_getD, hbyte, Option.getD_some]

/-- Settles O23: a block or window out of range is the only error, an unwritten byte the only fault, and otherwise the
effect is the grid of the window's bytes. -/
theorem decodeGridReadsEveryCellFromItsByte : Obligations.DecodeGridReadsEveryCellFromItsByte := by
  refine ⟨rfl, fun s => ⟨fun hrange => ?_, fun hfits hinside ⟨k, hk, hnone⟩ => ?_, fun hfits hinside hwritten => ?_⟩⟩
  · have he : commandError .decodeGrid s = .outOfRange := if_pos hrange
    rw [exec_of_error (by simp [he]), he, State.endCommand_eq, statusWord_outOfRange]
  · exact exec_of_unwritten (commandError_decodeGrid.2 ⟨hfits, hinside⟩) fun hw =>
      commandWritten_decodeGrid.1 hw k hk hnone
  · obtain ⟨bs, hr⟩ := Memory.readRange_of_written (commandWritten_decodeGrid.2 hwritten)
    have hx := exec_of_bytes (commandError_decodeGrid.2 ⟨hfits, hinside⟩) hr
    rw [commandEffect_decodeGrid, State.setGrid_success] at hx
    refine ⟨_, hx, fun r c b hb => decodeGridBytes_cell_of_read hr ?_⟩
    rwa [gridByteOffset_eq, ← Nat.add_assoc]

/-- A successful `DECODE_GRID` leaves the grid of the 192 bytes it read. -/
theorem exec_decodeGrid_gridOut {s t : State} (h : exec .decodeGrid s = .next t) (hone : t.status = 0x01#32) :
    ∃ bs, Memory.readRange s.buf s.offset.toNat gridBytes = some bs ∧ t.gridOut = decodeGridBytes bs := by
  rcases exec_cases .decodeGrid s with ⟨he, -⟩ | ⟨-, -, hx⟩ | ⟨-, bs, hr, hx⟩
  · exact absurd ((exec_status_eq_one h).1 hone) he
  · cases hx.symm.trans h
  · cases hx.symm.trans h
    refine ⟨bs, hr, ?_⟩
    rw [commandEffect_decodeGrid, State.endCommand_gridOut, State.setGrid_gridOut]

/-- Settles O25: both commands read the same list of bytes, and each leaves the grid of that list. -/
theorem gridDependsOnlyOnItsFootprint : Obligations.GridDependsOnlyOnItsFootprint := by
  intro s t s2 t2 h h2 hone hone2 hoffset hbytes
  obtain ⟨bs, hr, hgrid⟩ := exec_decodeGrid_gridOut h hone
  obtain ⟨bs2, hr2, hgrid2⟩ := exec_decodeGrid_gridOut h2 hone2
  rw [hoffset, Memory.readRange_congr hbytes, hr] at hr2
  cases hr2
  rw [hgrid, hgrid2]

end Sys2Proof.Machine
end

section
/-! PROOFS. The sprite unpacker's family: how a byte's two bit-planes make a pixel index (R141), what `DECODE_SPRITE` leaves
(R140), and the tiles of one byte (R148). -/

namespace Sys2Proof.Machine

/-! ### The pixel index -/

/-- Plane 0 of a byte gives the low bit of the index. -/
theorem pixelIndex_getLsbD_zero (v : Byte) (k : Nat) : (pixelIndex v k).getLsbD 0 = v.getLsbD k := by
  simp [pixelIndex]

/-- Plane 1 of a byte gives the high bit of the index. -/
theorem pixelIndex_getLsbD_one (v : Byte) (k : Nat) : (pixelIndex v k).getLsbD 1 = v.getLsbD (k + 4) := by
  simp [pixelIndex]

/-- A pixel is its two bits. -/
theorem pixel_toNat (p : Pixel) : p.toNat = (p.getLsbD 0).toNat + 2 * (p.getLsbD 1).toNat := by
  revert p
  decide

/-- Settles O28: the index is its two bits, and each bit is one plane's. -/
theorem pixelIndexJoinsTheTwoPlanes : Obligations.PixelIndexJoinsTheTwoPlanes := by
  intro v k
  rw [pixel_toNat, pixelIndex_getLsbD_zero, pixelIndex_getLsbD_one]

/-! ### The command -/

/-- What `DECODE_SPRITE` reads is the 24 bytes from `OFFSET` on: each of them must be written (R38). -/
theorem commandWritten_decodeSprite {s : State} :
    commandWritten .decodeSprite s ↔ ∀ k, k < 24 → Memory.read s.buf (s.offset.toNat + k) ≠ none := Iff.rfl

/-- A failed command, its error code known. -/
theorem exec_of_commandError_eq {i : Instr} {s : State} {code : ErrorCode} (he : commandError i s = code)
    (hcode : code ≠ .success) : exec i s = .next { s with status := statusWord code } := by
  rw [exec_of_error (he.trans_ne hcode), he, State.endCommand_eq]

/-- A decoded pixel is the index of the byte of `BUF` that stands at the pixel's place in the tile (R140, R145). -/
theorem decodeSpriteBytes_pixel_of_read {m : Memory} {base : Nat} {bs : List Byte}
    (hr : Memory.readRange m base spriteBytes = some bs) {r : Fin 12} {c : Fin 8} {b : Byte}
    (hb : Memory.read m (base + (2 * r.val + c.val / 4)) = some b) :
    (decodeSpriteBytes bs)[r][c] = pixelIndex b (3 - c.val % 4) := by
  have htile : 2 * r.val + c.val / 4 < spriteBytes := show _ < 24 by omega
  have hbyte : bs[2 * r.val + c.val / 4]? = some b := ((Memory.readRange_eq_some.1 hr).2 _ htile).symm.trans hb
  rw [decodeSpriteBytes_pixel, spritePixel, List.getD_eq_getElem?_getD, hbyte, Option.getD_some]

/-- Where no error applies and the tile is written, `DECODE_SPRITE` leaves a sprite whose every pixel is the index of its
byte. -/
theorem exec_decodeSprite_of_written {s : State} (he : commandError .decodeSprite s = .success)
    (hw : commandWritten .decodeSprite s) :
    ∃ p : Sprite, exec .decodeSprite s = .next { s with sprOut := p, sprV := true, status := 0x01#32 } ∧
      ∀ (r : Fin 12) (c : Fin 8) (b : Byte),
        Memory.read s.buf (s.offset.toNat + (2 * r.val + c.val / 4)) = some b →
          p[r][c] = pixelIndex b (3 - c.val % 4) := by
  obtain ⟨bs, hr⟩ := Memory.readRange_of_written hw
  have hx := exec_of_bytes he hr
  rw [commandEffect_decodeSprite, State.setSprite_success] at hx
  exact ⟨_, hx, fun _ _ _ hb => decodeSpriteBytes_pixel_of_read hr hb⟩

/-- Settles O27: too long a block, a wrong tile length and a tile out of range are the errors, in this order; an unwritten
byte is the only fault, and otherwise each pixel is the index of its byte. -/
theorem decodeSpriteReadsEveryPixelFromItsByte : Obligations.DecodeSpriteReadsEveryPixelFromItsByte := by
  refine ⟨rfl, fun s => ⟨fun hlong => ?_, fun hfits hlen => ?_, fun hfits hlen hbeyond => ?_,
    fun hfits hlen hinside ⟨k, hk, hnone⟩ => ?_, fun hfits hlen hinside hwritten => ?_⟩⟩
  · have he : commandError .decodeSprite s = .outOfRange := if_pos hlong
    rw [exec_of_commandError_eq he (by decide), statusWord_outOfRange]
  · have he : commandError .decodeSprite s = .malformedSprite := by
      rw [commandError, if_neg hfits.not_gt, if_pos hlen]
    rw [exec_of_commandError_eq he (by decide), statusWord_malformedSprite]
  · have he : commandError .decodeSprite s = .outOfRange := by
      rw [commandError, if_neg hfits.not_gt, if_neg (not_not.2 hlen), if_pos hbeyond]
    rw [exec_of_commandError_eq he (by decide), statusWord_outOfRange]
  · exact exec_of_unwritten (commandError_decodeSprite.2 ⟨hfits, hlen, hinside⟩) fun hw =>
      commandWritten_decodeSprite.1 hw k hk hnone
  · obtain ⟨p, hx, hpixel⟩ := exec_decodeSprite_of_written (commandError_decodeSprite.2 ⟨hfits, hlen, hinside⟩)
      (commandWritten_decodeSprite.2 hwritten)
    refine ⟨p, hx, fun r c b hb => ?_⟩
    have hplane : 3 - c.val % 4 + 4 = 7 - c.val % 4 := by omega
    rw [hpixel r c b (by rwa [← Nat.add_assoc]), pixelIndex_getLsbD_zero, pixelIndex_getLsbD_one, hplane]
    exact ⟨rfl, rfl⟩

/-! ### Tiles of one byte -/

/-- A tile whose bytes are all `b` decodes to the four indices of `b`, in every group of four columns. -/
theorem exec_decodeSprite_of_uniform {s : State} {b : Byte} (he : commandError .decodeSprite s = .success)
    (hb : ∀ k, k < 24 → Memory.read s.buf (s.offset.toNat + k) = some b) :
    ∃ t, exec .decodeSprite s = .next t ∧
      ∀ (r : Fin 12) (c : Fin 8), t.sprOut[r][c] = pixelIndex b (3 - c.val % 4) := by
  have hwritten : commandWritten .decodeSprite s :=
    commandWritten_decodeSprite.2 fun k hk => by simp [hb k hk]
  obtain ⟨p, hx, hpixel⟩ := exec_decodeSprite_of_written he hwritten
  exact ⟨_, hx, fun r c => hpixel r c b (hb _ (by omega))⟩

/-- Settles O29: byte 0x00 has no bit set in either plane, byte 0xFF every bit in both. -/
theorem uniformTilesDecodeUniformly : Obligations.UniformTilesDecodeUniformly := by
  intro s hfits hlen hinside
  have he : commandError .decodeSprite s = .success := commandError_decodeSprite.2 ⟨hfits, by rw [hlen]; rfl, hinside⟩
  have hblack : ∀ n : Fin 4, pixelIndex 0x00#8 (3 - n.val) = 0#2 := by decide
  have hwhite : ∀ n : Fin 4, pixelIndex 0xFF#8 (3 - n.val) = 3#2 := by decide
  refine ⟨fun hb => ?_, fun hb => ?_⟩ <;> obtain ⟨t, hx, hpixel⟩ := exec_decodeSprite_of_uniform he hb
  · exact ⟨t, hx, fun r c => (hpixel r c).trans (hblack ⟨c.val % 4, by omega⟩)⟩
  · exact ⟨t, hx, fun r c => (hpixel r c).trans (hwhite ⟨c.val % 4, by omega⟩)⟩

end Sys2Proof.Machine
end

section
/-! PROOFS. The host access family: what each access does where it names something (R161, R162, R164, R165), that it is
refused exactly where it names nothing (R163), and what the accesses of a load leave (R232). -/

namespace Sys2Proof.Machine

/-! ### Accesses that name nothing -/

theorem issueCommand_ne_refused (w : Word) (s : State) (r : Refusal) : issueCommand w s ≠ .refused r := by
  cases hd : decode w with
  | ok i =>
    rw [issueCommand_of_ok hd]
    exact exec_ne_refused i s r
  | error e =>
    rw [issueCommand_of_error hd]
    nofun

/-- Every register has a meaning for a write, if only to ignore it (R164). -/
theorem State.writeReg_ne_refused (s : State) (w : Word) (reg : Reg) (r : Refusal) :
    s.writeReg w reg ≠ .refused r := by
  cases reg with
  | cmd => exact issueCommand_ne_refused w s r
  | _ => nofun

theorem performWrb_refused_iff {a v : Nat} {s : State} :
    (∃ r, performWrb a v s = .refused r) ↔ s.cfg.bufSize ≤ a ∨ 255 < v := by
  rcases Nat.lt_or_ge a s.cfg.bufSize with ha | ha
  · rcases Nat.lt_or_ge 255 v with hv | hv
    · exact iff_of_true ⟨_, performWrb_badByte ha hv⟩ (.inr hv)
    · rw [performWrb_ok ha hv]
      exact iff_of_false nofun (by omega)
  · exact iff_of_true ⟨_, performWrb_badAddress ha⟩ (.inl ha)

theorem performRdb_refused_iff {a : Nat} {s : State} :
    (∃ r, performRdb a s = .refused r) ↔ s.cfg.bufSize ≤ a := by
  rcases Nat.lt_or_ge a s.cfg.bufSize with ha | ha
  · refine iff_of_false ?_ ha.not_ge
    cases hr : Memory.read s.buf a with
    | none => simp [performRdb_unwritten ha hr]
    | some b => simp [performRdb_ok ha hr]
  · exact iff_of_true ⟨_, performRdb_badAddress ha⟩ ha

theorem performWrr_refused_iff {i v : Nat} {s : State} :
    (∃ r, performWrr i v s = .refused r) ↔ 0xFF < i ∨ 2 ^ 32 ≤ v := by
  rcases Nat.lt_or_ge 0xFF i with hi | hi
  · exact iff_of_true ⟨_, performWrr_badIndex hi⟩ (.inl hi)
  · rcases Nat.lt_or_ge v (2 ^ 32) with hv | hv
    · obtain ⟨reg, hreg⟩ := Reg.exists_ofIndex hi
      rw [performWrr_ok hreg hv]
      exact iff_of_false (fun ⟨r, hr⟩ => s.writeReg_ne_refused _ reg r hr) (by omega)
    · exact iff_of_true ⟨_, performWrr_badValue hi hv⟩ (.inr hv)

theorem performRdr_refused_iff {i : Nat} {s : State} :
    (∃ r, performRdr i s = .refused r) ↔ 0xFF < i := by
  rcases Nat.lt_or_ge 0xFF i with hi | hi
  · exact iff_of_true ⟨_, performRdr_badIndex hi⟩ hi
  · obtain ⟨reg, hreg⟩ := Reg.exists_ofIndex hi
    refine iff_of_false ?_ hi.not_gt
    cases hw : s.readReg reg with
    | ok w => simp [performRdr_ok hreg hw]
    | error f => simp [performRdr_unwritten hreg hw]

/-- An access is refused exactly where it is not well formed (R163). -/
theorem performAccess_refused_iff {a : Access} {s : State} :
    (∃ r, performAccess a s = .refused r) ↔ a.wellFormed s.cfg.bufSize = false := by
  rcases a with ⟨x, v⟩ | x | ⟨i, v⟩ | i <;>
    simp only [Access.wellFormed, Bool.and_eq_false_iff, decide_eq_false_iff_not, not_lt, not_le]
  · exact performWrb_refused_iff
  · exact performRdb_refused_iff
  · exact performWrr_refused_iff
  · exact performRdr_refused_iff

/-- Settles O36: each form of access is refused at its own bounds, and these are the bounds of `wellFormed`. -/
theorem refusedExactlyWhereNothingIsNamed : Obligations.RefusedExactlyWhereNothingIsNamed := by
  refine fun s a => ⟨?_, performAccess_refused_iff⟩
  cases a with
  | wrb x v => exact performWrb_refused_iff
  | rdb x => exact performRdb_refused_iff
  | wrr i v => exact performWrr_refused_iff
  | rdr i => exact performRdr_refused_iff

/-! ### Register accesses -/

/-- A write to `STATUS`, a readout register or a reserved index is ignored (R164). -/
theorem performWrr_ignored {i v : Nat} (hi : i = 0x01 ∨ (0x05 ≤ i ∧ i ≤ 0xFF)) (hv : v < 2 ^ 32) (s : State) :
    performWrr i v s = .next s := by
  obtain ⟨reg, hreg⟩ := Reg.exists_ofIndex (i := i) (by omega)
  have hindex : reg.index = i := (Reg.ofIndex_eq_some hreg).1
  rw [performWrr_ok hreg hv]
  cases reg with
  | status | gridRow _ | sprRow _ | reserved _ => rfl
  | cmd | blklen | offset | len =>
    simp only [Reg.index] at hindex
    omega

/-- Settles O37: each index names its register, and a write to a register does what the table says. -/
theorem registerWritesFollowTheTable : Obligations.RegisterWritesFollowTheTable := by
  intro s i v hv
  refine ⟨?_, ?_, ?_, ?_, fun hi => performWrr_ignored hi hv s⟩ <;> rintro rfl
  · exact performWrr_cmd hv s
  · exact performWrr_ok Reg.ofIndex_blklen hv
  · exact performWrr_ok Reg.ofIndex_offset hv
  · exact performWrr_ok Reg.ofIndex_len hv

/-- Settles O38: each index names its register, and a readout register gives its word while its mark is set. -/
theorem registerReadsFollowTheTable : Obligations.RegisterReadsFollowTheTable := by
  intro s i gives
  refine ⟨?_, ?_, ?_, ?_, ?_, fun r => ?_, fun r => ?_, fun hi => performRdr_ok (Reg.ofIndex_reserved hi) rfl⟩ <;>
    rintro rfl
  · exact performRdr_ok Reg.ofIndex_cmd rfl
  · exact performRdr_ok Reg.ofIndex_status rfl
  · exact performRdr_ok Reg.ofIndex_blklen rfl
  · exact performRdr_ok Reg.ofIndex_offset rfl
  · exact performRdr_ok Reg.ofIndex_len rfl
  · exact ⟨fun hset => performRdr_ok (Reg.ofIndex_gridRow r) (s.readReg_gridRow r hset),
      fun hclear => performRdr_unwritten (Reg.ofIndex_gridRow r) (by simp [State.readReg, hclear])⟩
  · exact ⟨fun hset => performRdr_ok (Reg.ofIndex_sprRow r) (s.readReg_sprRow r hset),
      fun hclear => performRdr_unwritten (Reg.ofIndex_sprRow r) (by simp [State.readReg, hclear])⟩

/-! ### Byte accesses -/

/-- Settles O34: the access is one write of `BUF`, which reads back there and nowhere else. -/
theorem hostByteWriteStoresOneByte : Obligations.HostByteWriteStoresOneByte :=
  fun s a v ha hv => ⟨Memory.write s.buf a (BitVec.ofNat 8 v), performWrb_ok ha hv, Memory.read_write_same s.buf a _,
    fun _ hb => Memory.read_write_other s.buf _ hb⟩

/-- Settles O35: inside `BUF` the access answers by what a read of the byte answers. -/
theorem hostByteReadGivesTheByte : Obligations.HostByteReadGivesTheByte :=
  fun _ _ ha => ⟨fun _ hb => performRdb_ok ha hb, fun hnone => performRdb_unwritten ha hnone⟩

/-! ### Loads -/

/-- Byte writes to consecutive addresses inside `BUF` leave the bytes there and change nothing else (R86, R161). -/
theorem performAll_loadAccesses {s : State} {a : Nat} {bs : List Byte} (h : a + bs.length ≤ s.cfg.bufSize) :
    performAll (loadAccesses a (bs.map BitVec.toNat)) s = .next (s.writeBytes a bs) := by
  induction bs generalizing s a with
  | nil => rfl
  | cons b bs ih =>
    rw [List.length_cons] at h
    have hb : performAccess (.wrb a b.toNat) s = .next (s.setBuf (Memory.write s.buf a b)) := by
      rw [performAccess_wrb, performWrb_ok (by omega) (by omega), BitVec.ofNat_toNat, BitVec.setWidth_eq]
    rw [List.map_cons, loadAccesses, performAll_cons_next hb]
    exact ih (show a + 1 + bs.length ≤ s.cfg.bufSize by omega)

/-- A load is its byte writes and then the write of `BLKLEN` (R232). -/
theorem expandLines_loadProgram (raw : List Byte) :
    expandLines (loadProgram raw) = loadAccesses 0 (raw.map BitVec.toNat) ++ [.wrr 0x02 raw.length] := rfl

/-- The state a load leaves (R232). -/
theorem performAll_loadProgram {s : State} {raw : List Byte} (hfits : raw.length ≤ s.cfg.bufSize)
    (hlength : raw.length < 2 ^ 32) :
    performAll (expandLines (loadProgram raw)) s =
      .next ((s.writeBytes 0 raw).setBlklen (BitVec.ofNat 32 raw.length)) := by
  have hbytes := performAll_loadAccesses (s := s) (a := 0) (bs := raw) (by omega)
  have hblklen : performAccess (.wrr 0x02 raw.length) (s.writeBytes 0 raw) =
      .next ((s.writeBytes 0 raw).setBlklen (BitVec.ofNat 32 raw.length)) :=
    performWrr_ok Reg.ofIndex_blklen hlength
  rw [expandLines_loadProgram, performAll_append_next hbytes, performAll_cons_next hblklen, performAll_nil]

/-- Settles O55: the load writes the block as one range of `BUF` from address 0, and `BLKLEN`. -/
theorem loadPlacesTheBlock : Obligations.LoadPlacesTheBlock := by
  intro s raw hfits hlength
  refine ⟨Memory.writeRange s.buf 0 raw, performAll_loadProgram hfits hlength, fun k hk => ?_, fun a ha => ?_⟩
  · rw [Memory.read_writeRange, if_pos (by omega), Nat.sub_zero]
  · rw [Memory.read_writeRange, if_neg (by omega)]

end Sys2Proof.Machine
end

section
/-! PROOFS. The client software's family: what the record tables keep (R181 to R187), tile codes (R182), the grids' predicates
(R188 to R190), the length tests (R193, R198), the record reads (R194) and the sprite sheet (R197). -/

namespace Sys2Proof.Machine

/-! ### Recording -/

theorem recorded_record {κ α : Type} [DecidableEq κ] (k k2 : κ) (v : α) (table : List (κ × α)) :
    recorded k (record k2 v table) = if k2 = k then some v else recorded k table := by
  induction table with
  | nil => rfl
  | cons e es ih =>
    by_cases hhead : e.1 = k2
    · simp only [record, recorded, hhead, if_true]
      split_ifs <;> rfl
    · simp only [record, recorded, hhead, if_false, ih]
      by_cases hk : e.1 = k
      · rw [if_pos hk, if_neg fun h => hhead (hk.trans h.symm), if_pos hk]
      · simp only [if_neg hk]

theorem record_length_le {κ α : Type} [DecidableEq κ] (k : κ) (v : α) (table : List (κ × α)) :
    (record k v table).length ≤ table.length + 1 := by
  induction table with
  | nil => exact le_rfl
  | cons e es ih =>
    unfold record
    split_ifs
    · exact Nat.le_succ _
    · exact Nat.succ_le_succ ih

/-- Records of which all those at a key give it the same value leave that value there. -/
theorem recorded_foldl_record {κ α ι : Type} [DecidableEq κ] {key : ι → κ} {val : ι → α} {es : List ι}
    {table : List (κ × α)} {k : κ} {v : α} (hval : ∀ e ∈ es, key e = k → val e = v)
    (hk : recorded k table = some v ∨ ∃ e ∈ es, key e = k) :
    recorded k (es.foldl (fun t e => record (key e) (val e) t) table) = some v := by
  induction es generalizing table with
  | nil => simpa using hk
  | cons e es ih =>
    refine ih (fun d hd => hval d (List.mem_cons_of_mem e hd)) ?_
    rw [recorded_record]
    by_cases he : key e = k
    · exact .inl ((if_pos he).trans (congrArg some (hval e List.mem_cons_self he)))
    · rw [if_neg he]
      exact hk.imp_right fun ⟨d, hd, hdk⟩ => ⟨d, (List.mem_cons.1 hd).resolve_left fun h => he (h ▸ hdk), hdk⟩

/-! ### Tables of filtered slots -/

section
variable {κ α : Type} [DecidableEq κ] (filtered : Nat → Prop) [DecidablePred filtered] (key : Nat → κ) (val : Nat → α)

/-- One slot of a table: recorded under its key unless it is filtered. -/
def recordSlot (table : List (κ × α)) (i : Nat) : List (κ × α) :=
  if filtered i then table else record (key i) (val i) table

/-- The table of the slots 1 to `n`, in increasing index (R187). The lookup, door and key tables are such tables:
`lookupTable_eq`, `doorTable_eq`, `keyTable_eq`. -/
def slotTable (n : Nat) : List (κ × α) := (List.range' 1 n).foldl (recordSlot filtered key val) []

theorem slotTable_succ (n : Nat) :
    slotTable filtered key val (n + 1) = recordSlot filtered key val (slotTable filtered key val n) (n + 1) := by
  rw [slotTable, List.range'_1_concat, List.foldl_append, Nat.add_comm 1 n]
  rfl

theorem recorded_recordSlot (table : List (κ × α)) (i : Nat) (k : κ) :
    recorded k (recordSlot filtered key val table i) =
      if ¬ filtered i ∧ key i = k then some (val i) else recorded k table := by
  unfold recordSlot
  by_cases hf : filtered i
  · simp [hf]
  · simp [hf, recorded_record]

/-- A table holds at a key the last slot that is not filtered and names it (R187). -/
theorem recorded_slotTable {n : Nat} {k : κ} {v : α} :
    recorded k (slotTable filtered key val n) = some v ↔
      ∃ i, 1 ≤ i ∧ i ≤ n ∧ ¬ filtered i ∧ key i = k ∧ val i = v ∧ ∀ j, i < j → j ≤ n → key j = k → filtered j := by
  induction n with
  | zero =>
    refine iff_of_false (by simp [slotTable, recorded]) ?_
    rintro ⟨i, hpos, hle, -⟩
    omega
  | succ n ih =>
    rw [slotTable_succ, recorded_recordSlot]
    by_cases hlast : ¬ filtered (n + 1) ∧ key (n + 1) = k
    · obtain ⟨hfree, hkey⟩ := hlast
      rw [if_pos ⟨hfree, hkey⟩, Option.some.injEq]
      constructor
      · exact fun hv => ⟨n + 1, by omega, le_rfl, hfree, hkey, hv, fun j h1 h2 => by omega⟩
      · rintro ⟨i, -, hle, -, -, hv, hlater⟩
        rcases Nat.lt_or_eq_of_le hle with hlt | rfl
        · exact absurd (hlater (n + 1) hlt le_rfl hkey) hfree
        · exact hv
    · rw [if_neg hlast, ih]
      constructor
      · rintro ⟨i, hpos, hle, hfree, hkey, hv, hlater⟩
        refine ⟨i, hpos, by omega, hfree, hkey, hv, fun j hij hj hkj => ?_⟩
        rcases Nat.lt_or_eq_of_le hj with hlt | rfl
        · exact hlater j hij (by omega) hkj
        · exact not_not.1 fun hf => hlast ⟨hf, hkj⟩
      · rintro ⟨i, hpos, hle, hfree, hkey, hv, hlater⟩
        rcases Nat.lt_or_eq_of_le hle with hlt | rfl
        · exact ⟨i, hpos, by omega, hfree, hkey, hv, fun j hij hj => hlater j hij (by omega)⟩
        · exact absurd ⟨hfree, hkey⟩ hlast

theorem slotTable_length_le (n : Nat) : (slotTable filtered key val n).length ≤ n := by
  induction n with
  | zero => exact le_rfl
  | succ n ih =>
    rw [slotTable_succ, recordSlot]
    split_ifs
    · exact Nat.le_succ_of_le ih
    · exact (record_length_le _ _ _).trans (Nat.succ_le_succ ih)

end

/-! ### The lookup, door and key tables -/

theorem lookupTable_eq (blk : List Byte) :
    lookupTable blk = slotTable (fun i => blockByte blk (0x40 + i) = sentinel)
      (fun i => (blockByte blk i, blockByte blk (0x20 + i))) (fun i => blockByte blk (0x40 + i)) 31 := rfl

theorem doorTable_eq (blk : List Byte) :
    doorTable blk = slotTable
      (fun i => blockByte blk (0x60 + i) = sentinel ∨ blockByte blk (0x75 + i) = sentinel ∨
        blockByte blk (0x8A + i) = sentinel)
      (fun i => (blockByte blk (0x60 + i), blockByte blk (0x75 + i))) (fun i => ⟨i, blockByte blk (0x8A + i)⟩) 20 := rfl

theorem keyTable_eq (blk : List Byte) :
    keyTable blk = slotTable (fun i => blockByte blk (0xA0 + i) = sentinel ∨ blockByte blk (0xB5 + i) = sentinel)
      (fun i => (blockByte blk (0xA0 + i), blockByte blk (0xB5 + i))) id 20 := rfl

theorem recorded_lookupTable {blk : List Byte} {x y t : Byte} :
    recorded (x, y) (lookupTable blk) = some t ↔
      ∃ i, 1 ≤ i ∧ i ≤ 31 ∧ blockByte blk i = x ∧ blockByte blk (0x20 + i) = y ∧
        blockByte blk (0x40 + i) = t ∧ t ≠ 0xFF#8 ∧
        ∀ j, i < j → j ≤ 31 → blockByte blk j = x → blockByte blk (0x20 + j) = y →
          blockByte blk (0x40 + j) = 0xFF#8 := by
  rw [lookupTable_eq, recorded_slotTable]
  simp only [Prod.mk.injEq, sentinel]
  constructor
  · rintro ⟨i, hpos, hle, hfree, ⟨hx, hy⟩, rfl, hlater⟩
    exact ⟨i, hpos, hle, hx, hy, rfl, hfree, fun j hij hj hjx hjy => hlater j hij hj ⟨hjx, hjy⟩⟩
  · rintro ⟨i, hpos, hle, hx, hy, rfl, hfree, hlater⟩
    exact ⟨i, hpos, hle, hfree, ⟨hx, hy⟩, rfl, fun j hij hj ⟨hjx, hjy⟩ => hlater j hij hj hjx hjy⟩

/-- A later slot that names the coordinate of a door is filtered only by its orientation byte. -/
theorem recorded_doorTable {blk : List Byte} {x y : Byte} {d : Door} :
    recorded (x, y) (doorTable blk) = some d ↔
      1 ≤ d.id ∧ d.id ≤ 20 ∧ blockByte blk (0x60 + d.id) = x ∧ blockByte blk (0x75 + d.id) = y ∧
        blockByte blk (0x8A + d.id) = d.orientation ∧ x ≠ 0xFF#8 ∧ y ≠ 0xFF#8 ∧ d.orientation ≠ 0xFF#8 ∧
        ∀ j, d.id < j → j ≤ 20 → blockByte blk (0x60 + j) = x → blockByte blk (0x75 + j) = y →
          blockByte blk (0x8A + j) = 0xFF#8 := by
  rw [doorTable_eq, recorded_slotTable]
  simp only [Prod.mk.injEq, sentinel, not_or]
  constructor
  · rintro ⟨i, hpos, hle, ⟨hxf, hyf, hof⟩, ⟨rfl, rfl⟩, rfl, hlater⟩
    refine ⟨hpos, hle, rfl, rfl, rfl, hxf, hyf, hof, fun j hij hj hjx hjy => ?_⟩
    exact ((hlater j hij hj ⟨hjx, hjy⟩).resolve_left (hjx ▸ hxf)).resolve_left (hjy ▸ hyf)
  · rintro ⟨hpos, hle, rfl, rfl, ho, hxf, hyf, hof, hlater⟩
    exact ⟨d.id, hpos, hle, ⟨hxf, hyf, ho ▸ hof⟩, ⟨rfl, rfl⟩, congrArg (Door.mk d.id) ho,
      fun j hij hj ⟨hjx, hjy⟩ => .inr (.inr (hlater j hij hj hjx hjy))⟩

/-- A later slot that names the coordinate of a key is never filtered. -/
theorem recorded_keyTable {blk : List Byte} {x y : Byte} {i : Nat} :
    recorded (x, y) (keyTable blk) = some i ↔
      1 ≤ i ∧ i ≤ 20 ∧ blockByte blk (0xA0 + i) = x ∧ blockByte blk (0xB5 + i) = y ∧ x ≠ 0xFF#8 ∧ y ≠ 0xFF#8 ∧
        ∀ j, i < j → j ≤ 20 → ¬ (blockByte blk (0xA0 + j) = x ∧ blockByte blk (0xB5 + j) = y) := by
  rw [keyTable_eq, recorded_slotTable]
  simp only [Prod.mk.injEq, sentinel, not_or, id]
  constructor
  · rintro ⟨i, hpos, hle, ⟨hxf, hyf⟩, ⟨rfl, rfl⟩, rfl, hlater⟩
    refine ⟨hpos, hle, rfl, rfl, hxf, hyf, fun j hij hj ⟨hjx, hjy⟩ => ?_⟩
    exact (hlater j hij hj ⟨hjx, hjy⟩).elim (hjx ▸ hxf) (hjy ▸ hyf)
  · rintro ⟨hpos, hle, rfl, rfl, hxf, hyf, hlater⟩
    exact ⟨i, hpos, hle, ⟨hxf, hyf⟩, ⟨rfl, rfl⟩, rfl, fun j hij hj hjk => absurd hjk (hlater j hij hj)⟩

/-- Settles O48: the three tables are tables of filtered slots, of which each key keeps the last. -/
theorem clientTablesKeepTheLastUnfilteredSlot : Obligations.ClientTablesKeepTheLastUnfilteredSlot :=
  fun _ _ _ => ⟨fun _ => recorded_lookupTable, fun _ => recorded_doorTable, fun _ => recorded_keyTable⟩

/-! ### The trapdoors -/

/-- The pair of trapdoor slot `i` (R186), which `trapdoorSlot` adds: `trapdoorSlot_eq`. -/
def trapdoorPair (blk : List Byte) (i : Nat) : Coord := (blockByte blk (0xD0 + i), blockByte blk (0xD8 + i))

theorem trapdoorSlot_eq (blk : List Byte) (set : List Coord) (i : Nat) :
    trapdoorSlot blk set i = if trapdoorPair blk i ∈ set then set else set ++ [trapdoorPair blk i] := rfl

theorem mem_trapdoorSlot {blk : List Byte} {set : List Coord} {i : Nat} {p : Coord} :
    p ∈ trapdoorSlot blk set i ↔ p ∈ set ∨ p = trapdoorPair blk i := by
  rw [trapdoorSlot_eq]
  split_ifs with h
  · exact ⟨.inl, fun hp => hp.elim id fun he => he ▸ h⟩
  · rw [List.mem_append, List.mem_singleton]

theorem nodup_trapdoorSlot {blk : List Byte} {set : List Coord} (i : Nat) (h : set.Nodup) :
    (trapdoorSlot blk set i).Nodup := by
  rw [trapdoorSlot_eq]
  split_ifs with hmem
  · exact h
  · exact List.nodup_append.2 ⟨h, List.nodup_singleton _, by simpa using fun a b hab => ne_of_mem_of_not_mem hab hmem⟩

theorem mem_foldl_trapdoorSlot {blk : List Byte} {is : List Nat} {set : List Coord} {p : Coord} :
    p ∈ is.foldl (trapdoorSlot blk) set ↔ p ∈ set ∨ p ∈ is.map (trapdoorPair blk) := by
  induction is generalizing set with
  | nil => simp
  | cons i is ih => rw [List.foldl_cons, ih, mem_trapdoorSlot, List.map_cons, List.mem_cons, or_assoc]

theorem nodup_foldl_trapdoorSlot {blk : List Byte} {is : List Nat} {set : List Coord} (h : set.Nodup) :
    (is.foldl (trapdoorSlot blk) set).Nodup := by
  induction is generalizing set with
  | nil => exact h
  | cons i is ih => exact ih (nodup_trapdoorSlot i h)

theorem mem_trapdoorSet {blk : List Byte} {p : Coord} :
    p ∈ trapdoorSet blk ↔ p ∈ (List.range 8).map (trapdoorPair blk) :=
  mem_foldl_trapdoorSlot.trans (or_iff_right List.not_mem_nil)

theorem nodup_trapdoorSet (blk : List Byte) : (trapdoorSet blk).Nodup := nodup_foldl_trapdoorSlot List.nodup_nil

theorem trapdoorSet_length_le (blk : List Byte) : (trapdoorSet blk).length ≤ 8 := by
  have hsub : trapdoorSet blk ⊆ (List.range 8).map (trapdoorPair blk) := fun _ => mem_trapdoorSet.1
  simpa using ((nodup_trapdoorSet blk).subperm hsub).length_le

theorem trapdoorSet_length_of_distinct {blk : List Byte}
    (h : ∀ i j, i < 8 → j < 8 → trapdoorPair blk i = trapdoorPair blk j → i = j) : (trapdoorSet blk).length = 8 := by
  have hpairs : ((List.range 8).map (trapdoorPair blk)).Nodup :=
    List.nodup_range.map_on fun i hi j hj => h i j (List.mem_range.1 hi) (List.mem_range.1 hj)
  have hperm := (List.perm_ext_iff_of_nodup (nodup_trapdoorSet blk) hpairs).2 fun _ => mem_trapdoorSet
  simpa using hperm.length_eq

/-- Settles O49: the trapdoors are the eight pairs without repeats, and each slot records at most one entry. -/
theorem trapdoorsAreUnfilteredAndTablesBounded : Obligations.TrapdoorsAreUnfilteredAndTablesBounded := by
  intro blk
  refine ⟨fun p => ?_, nodup_trapdoorSet blk, trapdoorSet_length_le blk, fun hdistinct => ?_,
    slotTable_length_le _ _ _ 31, slotTable_length_le _ _ _ 20, slotTable_length_le _ _ _ 20⟩
  · simp only [mem_trapdoorSet, List.mem_map, List.mem_range, trapdoorPair, eq_comm]
  · exact trapdoorSet_length_of_distinct fun i j hi hj hpair =>
      hdistinct i j hi hj (congrArg Prod.fst hpair) (congrArg Prod.snd hpair)

/-! ### The record reads -/

/-- The offsets of a column: the byte of slot `i` stands at `b + i`. -/
theorem exists_slot_offset_iff {lo n a b : Nat} :
    (∃ i, (lo ≤ i ∧ i < lo + n) ∧ a = b + i) ↔ b + lo ≤ a ∧ a < b + lo + n := by
  constructor
  · rintro ⟨i, hi, rfl⟩
    omega
  · exact fun h => ⟨a - b, by omega, by omega⟩

theorem mem_recordOffsets {a : Nat} :
    a ∈ recordOffsets ↔
      (0x01 ≤ a ∧ a ≤ 0x1F) ∨ (0x21 ≤ a ∧ a ≤ 0x3F) ∨ (0x41 ≤ a ∧ a ≤ 0x5F) ∨
      (0x61 ≤ a ∧ a ≤ 0x74) ∨ (0x76 ≤ a ∧ a ≤ 0x89) ∨ (0x8B ≤ a ∧ a ≤ 0x9E) ∨
      (0xA1 ≤ a ∧ a ≤ 0xB4) ∨ (0xB6 ≤ a ∧ a ≤ 0xC9) ∨ (0xD0 ≤ a ∧ a ≤ 0xD7) ∨ (0xD8 ≤ a ∧ a ≤ 0xDF) := by
  simp only [recordOffsets, List.range_eq_range', List.mem_append, List.mem_flatMap, List.mem_range'_1, List.mem_cons,
    List.not_mem_nil, or_false, and_or_left, exists_or, exists_eq_right', exists_slot_offset_iff]
  omega

theorem nodup_recordOffsets : recordOffsets.Nodup := by decide +kernel

section
variable {blk blk2 : List Byte} (h : ∀ a ∈ recordOffsets, blockByte blk2 a = blockByte blk a)
include h

theorem lookupTable_congr : lookupTable blk2 = lookupTable blk := by
  refine List.foldl_ext _ _ _ fun table i hi => ?_
  obtain ⟨hpos, hlt⟩ := List.mem_range'_1.1 hi
  simp only [lookupSlot, h i (mem_recordOffsets.2 (by omega)), h (0x20 + i) (mem_recordOffsets.2 (by omega)),
    h (0x40 + i) (mem_recordOffsets.2 (by omega))]

theorem doorTable_congr : doorTable blk2 = doorTable blk := by
  refine List.foldl_ext _ _ _ fun table i hi => ?_
  obtain ⟨hpos, hlt⟩ := List.mem_range'_1.1 hi
  simp only [doorSlot, h (0x60 + i) (mem_recordOffsets.2 (by omega)), h (0x75 + i) (mem_recordOffsets.2 (by omega)),
    h (0x8A + i) (mem_recordOffsets.2 (by omega))]

theorem keyTable_congr : keyTable blk2 = keyTable blk := by
  refine List.foldl_ext _ _ _ fun table i hi => ?_
  obtain ⟨hpos, hlt⟩ := List.mem_range'_1.1 hi
  simp only [keySlot, h (0xA0 + i) (mem_recordOffsets.2 (by omega)), h (0xB5 + i) (mem_recordOffsets.2 (by omega))]

theorem trapdoorSet_congr : trapdoorSet blk2 = trapdoorSet blk := by
  refine List.foldl_ext _ _ _ fun set i hi => ?_
  have hlt := List.mem_range.1 hi
  simp only [trapdoorSlot, h (0xD0 + i) (mem_recordOffsets.2 (by omega)), h (0xD8 + i) (mem_recordOffsets.2 (by omega))]

end

/-- Settles O57: each slot of each table reads only bytes at record offsets. -/
theorem recordReadsAreTheTableBytes : Obligations.RecordReadsAreTheTableBytes :=
  ⟨fun _ => mem_recordOffsets, nodup_recordOffsets, fun _ _ h =>
    ⟨lookupTable_congr h, doorTable_congr h, keyTable_congr h, trapdoorSet_congr h⟩⟩

/-! ### The length test of a level -/

theorem decodeLevel_of_lt {raw : List Byte} (h : raw.length < levelMinimum) : decodeLevel raw = .error .malformedLevel :=
  if_pos h

theorem decodeLevel_eq_error_iff {raw : List Byte} :
    decodeLevel raw = .error .malformedLevel ↔ raw.length < levelMinimum := by
  refine ⟨fun herror => Nat.lt_of_not_le fun hle => ?_, decodeLevel_of_lt⟩
  rw [decodeLevel_of_le hle] at herror
  cases herror

theorem levelProgram_error_iff {raw : List Byte} :
    (levelProgram raw).error = some .malformedLevel ↔ raw.length < levelMinimum := by
  rw [levelProgram, clientRun_error, ite_eq_left_iff]
  simp

theorem levelProgram_lines_of_lt {raw : List Byte} (h : raw.length < levelMinimum) :
    (levelProgram raw).lines = loadProgram raw := by
  rw [levelProgram, clientRun_lines, if_pos h, List.append_nil]

/-- A load issues no command: it writes bytes and `BLKLEN` (R232). -/
theorem cmd_not_mem_loadProgram (raw : List Byte) (v : Nat) : .wrr 0x00 v ∉ expandLines (loadProgram raw) := by
  simp [expandLines_loadProgram, loadAccesses_eq]

/-- Settles O47: the decoder and the client make one length test, before which the client only loads the block. -/
theorem levelFailsExactlyBelowItsMinimum : Obligations.LevelFailsExactlyBelowItsMinimum :=
  fun raw => ⟨decodeLevel_eq_error_iff, fun hle => ⟨_, decodeLevel_of_le hle⟩, levelProgram_error_iff,
    fun hlt v => levelProgram_lines_of_lt hlt ▸ cmd_not_mem_loadProgram raw v⟩

/-! ### Tile codes -/

theorem Door.vertical_iff (d : Door) : d.vertical = true ↔ d.orientation = 0x1D#8 := beq_iff_eq

/-- Settles O50: the codes are compared as numbers, and the branches of `classifyTile` are the rows of the table. -/
theorem tileCodesClassify : Obligations.TileCodesClassify := by
  unfold Obligations.TileCodesClassify
  refine ⟨fun code => ?_, Door.vertical_iff⟩
  simp only [← BitVec.toNat_inj]
  unfold classifyTile
  split <;> simp_all

/-! ### The grids' predicates -/

theorem blockSlice_getD {blk : List Byte} {base n k : Nat} (hk : k < n) :
    (blockSlice blk base n).getD k 0#8 = blockByte blk (base + k) := by
  simp only [blockSlice, blockByte, List.getD_eq_getElem?_getD, List.getElem?_take_of_lt hk, List.getElem?_drop]

/-- A cell of a grid that stands at `base` in a block is a bit of the block's byte (R120, R188). -/
theorem decodeGridBytes_blockSlice_cell (blk : List Byte) (base : Nat) (r : Fin 48) (c : Fin 32) :
    (decodeGridBytes (blockSlice blk base gridBytes))[r][c] =
      (blockByte blk (base + (r.val / 8 * 32 + r.val % 8) + 8 * (c.val / 8))).getLsbD (7 - c.val % 8) := by
  have hwindow : gridByteOffset r.val (8 * (c.val / 8)) < gridBytes := gridByteOffset_lt r.isLt (by omega)
  rw [decodeGridBytes_cell, gridCell_eq_getLsbD, blockSlice_getD hwindow, gridByteOffset_eq, Nat.add_assoc base]

theorem levelOf_isSolid (blk : List Byte) (r : Fin 48) (c : Fin 32) :
    (levelOf blk).isSolid r c =
      (blockByte blk (0xE0 + (r.val / 8 * 32 + r.val % 8) + 8 * (c.val / 8))).getLsbD (7 - c.val % 8) :=
  decodeGridBytes_blockSlice_cell blk solidBase r c

theorem levelOf_isCollectable (blk : List Byte) (r : Fin 48) (c : Fin 32) :
    (levelOf blk).isCollectable r c =
      !(blockByte blk (0x1B0 + (r.val / 8 * 32 + r.val % 8) + 8 * (c.val / 8))).getLsbD (7 - c.val % 8) :=
  congrArg not (decodeGridBytes_blockSlice_cell blk collectableBase r c)

/-- Settles O51: both predicates read a cell of their grid, and the collectable grid is inverted. The length of the block is not
needed: slices and `blockByte` read alike beyond its end. -/
theorem gridPredicatesReadTheirBits : Obligations.GridPredicatesReadTheirBits := by
  intro blk r c _
  rw [levelOf_isSolid, levelOf_isCollectable, Bool.not_eq_true']
  exact ⟨Iff.rfl, Iff.rfl⟩

/-! ### The sprite sheet -/

theorem mem_entrySlots {base k : Nat} {names : List String} {n : String} (h : names[k]? = some n) :
    (n, base + 48 * k) ∈ entrySlots base names := by
  induction names generalizing base k with
  | nil => cases h
  | cons name names ih =>
    cases k with
    | zero =>
      cases h
      exact List.mem_cons_self
    | succ k =>
      have hrest := ih (base := base + 48) (k := k) h
      rw [show base + 48 + 48 * k = base + 48 * (k + 1) by omega] at hrest
      exact List.mem_cons_of_mem _ hrest

theorem lt_foldr_max_iff {m : Nat} {l : List Nat} : m < l.foldr max 0 ↔ ∃ x ∈ l, m < x := by
  induction l with
  | nil => simp
  | cons x xs ih => simp [ih]

/-- The length test fails exactly where the tile of some slot leaves the sheet (R198). -/
theorem lt_sheetMinimum_iff {table : SheetTable} {m : Nat} :
    m < sheetMinimum table ↔ ∃ e ∈ sheetSlots table, m < e.2 + 24 := by
  simp only [sheetMinimum, lt_foldr_max_iff, List.mem_map, exists_exists_and_eq_and]

/-- The sprite of a catalog slot in a sheet. -/
def slotSprite (sheet : List Byte) (e : String × Nat) : Sprite := decodeSpriteBytes (blockSlice sheet e.2 spriteBytes)

theorem decodeSheet_of_lt {table : SheetTable} {sheet : List Byte} (h : sheet.length < sheetMinimum table) :
    decodeSheet table sheet = .error .malformedSpriteSheet := if_pos h

theorem decodeSheet_of_le {table : SheetTable} {sheet : List Byte} (h : sheetMinimum table ≤ sheet.length) :
    decodeSheet table sheet =
      .ok ((sheetSlots table).foldl (fun t e => record e.1 (slotSprite sheet e) t) []) := if_neg (Nat.not_lt.2 h)

theorem decodeSheet_eq_error_iff {table : SheetTable} {sheet : List Byte} :
    decodeSheet table sheet = .error .malformedSpriteSheet ↔ sheet.length < sheetMinimum table := by
  refine ⟨fun herror => Nat.lt_of_not_le fun hle => ?_, decodeSheet_of_lt⟩
  rw [decodeSheet_of_le hle] at herror
  cases herror

/-- A sheet that decodes holds the tile of every slot, and a name that stands at one offset keeps its sprite. -/
theorem decodeSheet_eq_ok {table : SheetTable} {sheet : List Byte} {sprites : List (String × Sprite)}
    (h : decodeSheet table sheet = .ok sprites) {name : String} {off : Nat} (hslot : (name, off) ∈ sheetSlots table) :
    off + spriteBytes ≤ sheet.length ∧
      ((∀ off2, (name, off2) ∈ sheetSlots table → off2 = off) →
        recorded name sprites = some (slotSprite sheet (name, off))) := by
  have hmin : sheetMinimum table ≤ sheet.length := Nat.le_of_not_lt fun hlt => by
    rw [decodeSheet_of_lt hlt] at h
    cases h
  rw [decodeSheet_of_le hmin, Except.ok.injEq] at h
  subst h
  refine ⟨Nat.le_of_not_lt fun hlt => Nat.not_lt.2 hmin (lt_sheetMinimum_iff.2 ⟨_, hslot, hlt⟩), fun honce => ?_⟩
  refine recorded_foldl_record (fun e he hname => ?_) (.inr ⟨_, hslot, rfl⟩)
  rw [slotSprite, honce e.2 (hname ▸ he), slotSprite]

/-- Settles O53: the sheet as it stands in `BUF` is the block from which the client decodes every slot. -/
theorem commandsComputeTheSheet : Obligations.CommandsComputeTheSheet := by
  intro table sheet
  refine ⟨fun base names k n hentry hname => List.mem_flatMap.2 ⟨_, hentry, mem_entrySlots hname⟩,
    decodeSheet_eq_error_iff.trans lt_sheetMinimum_iff, fun s sprites name off hdecode hslot hblklen hfits hbytes => ?_⟩
  have hsheet : HoldsBlock s sheet := ⟨hblklen, hfits, hbytes⟩
  obtain ⟨hinside, hrecorded⟩ := decodeSheet_eq_ok hdecode hslot
  have hoff : (BitVec.ofNat 32 off).toNat = off := by
    have := s.blklen.isLt
    rw [BitVec.toNat_ofNat]
    omega
  obtain ⟨t, hx, hsprite, hstatus⟩ := hsheet.exec_decodeSprite (hoff.symm ▸ hinside)
  rw [hoff] at hsprite
  exact ⟨t, hx, hstatus, fun honce => hsprite ▸ hrecorded honce⟩

end Sys2Proof.Machine
end

section
/-! PROOFS. The failures of commands: which error a command ends with (R211, R212), that a failure writes `STATUS` only
(R213) and repeats (R215), and that instances share nothing (R222). -/

namespace Sys2Proof.Machine

/-! ### A failed command -/

/-- An issue that has an error writes that error to `STATUS` and nothing else (R213). -/
theorem issueCommand_of_issueError {w : Word} {s : State} (h : issueError w s ≠ .success) :
    issueCommand w s = .next (s.endCommand (issueError w s)) := by
  cases hd : decode w with
  | ok i =>
    rw [issueError_ok hd] at h ⊢
    rw [issueCommand_of_ok hd, exec_of_error h]
  | error e => rw [issueError_error hd, issueCommand_of_error hd, State.raise]

/-- A command that leaves `ERR` set leaves the state as it was but for `STATUS`. -/
theorem eq_setStatus_of_statusErr {w : Word} {s t : State} (h : issueCommand w s = .next t)
    (herr : statusErr t.status = true) : t = s.setStatus t.status := by
  have hne : issueError w s ≠ .success := (statusErr_statusWord _).1 (issueCommand_status h ▸ herr)
  cases (issueCommand_of_issueError hne).symm.trans h
  rfl

/-- Settles O14: the state a failed command leaves differs in `STATUS` only. -/
theorem failedCommandWritesOnlyStatus : Obligations.FailedCommandWritesOnlyStatus :=
  fun _ _ _ => eq_setStatus_of_statusErr

/-- Settles O15: the failed command changed `STATUS` only, which no command reads. -/
theorem reissuedFailureFailsAlike : Obligations.ReissuedFailureFailsAlike := by
  intro w s t h herr
  calc issueCommand w t = issueCommand w (s.setStatus t.status) := congrArg _ (eq_setStatus_of_statusErr h herr)
    _ = issueCommand w s := issueCommand_setStatus w s t.status
    _ = .next t := h

/-! ### The order of the errors -/

/-- Too long a block is the first error of every command (R212). -/
theorem commandError_of_bufSize_lt {s : State} (h : s.cfg.bufSize < s.blklen.toNat) (i : Instr) :
    commandError i s = .outOfRange := by
  cases i with
  | unscramble => exact if_pos h
  | decodeGrid => exact if_pos (.inl h)
  | decodeSprite => exact if_pos h

/-- Settles O13: the decoder's error comes before the command's own, too long a block before the others, and the two
decoders' own errors in the order of their statements. -/
theorem errorsInPriorityOrder : Obligations.ErrorsInPriorityOrder := by
  intro s
  obtain ⟨hgridRange, -, -⟩ := decodeGridReadsEveryCellFromItsByte.2 s
  obtain ⟨-, hspriteLen, hspriteRange, -, -⟩ := decodeSpriteReadsEveryPixelFromItsByte.2 s
  refine ⟨fun w e hd => ?_, fun i hlong => ?_, hspriteLen, hspriteRange, fun _ hbeyond => hgridRange (.inr hbeyond),
    fun t hfits hx => ?_, fun t hfits hinside hx => ?_, fun t hfits hlen hinside hx => ?_⟩
  · rw [issueCommand_of_error hd, State.raise, State.endCommand_eq, statusWord_illegalCommand]
  · rw [exec_of_commandError_eq (commandError_of_bufSize_lt hlong i) (by decide), statusWord_outOfRange]
  · exact (exec_status_eq_one hx).2 (commandError_unscramble.2 hfits)
  · exact (exec_status_eq_one hx).2 (commandError_decodeGrid.2 ⟨hfits, hinside⟩)
  · exact (exec_status_eq_one hx).2 (commandError_decodeSprite.2 ⟨hfits, hlen, hinside⟩)

/-! ### Several instances -/

theorem System.stepAt_of_none {k : Nat} {sys : System} (h : sys[k]? = none) : System.stepAt k sys = .next sys := by
  simp only [System.stepAt, h]

theorem System.stepAt_of_step {k : Nat} {sys : System} {s t : State} (hs : sys[k]? = some s) (ht : step s = .next t) :
    System.stepAt k sys = .next (sys.set k t) := by
  simp only [System.stepAt, hs, ht]

/-- Everything a system's step that completes can do: nothing where position `k` is empty, or the step of its DJD. -/
theorem System.stepAt_next {k : Nat} {sys a : System} (h : System.stepAt k sys = .next a) :
    (sys[k]? = none ∧ a = sys) ∨ ∃ s t, sys[k]? = some s ∧ step s = .next t ∧ a = sys.set k t := by
  cases hs : sys[k]? with
  | none =>
    cases (System.stepAt_of_none hs).symm.trans h
    exact .inl ⟨rfl, rfl⟩
  | some s =>
    simp only [System.stepAt, hs] at h
    split at h <;> cases h
    exact .inr ⟨s, _, rfl, ‹_›, rfl⟩

/-- A step of one DJD leaves every other as it was (R222). -/
theorem System.stepAt_getElem?_of_ne {k m : Nat} {sys a : System} (h : System.stepAt k sys = .next a) (hm : m ≠ k) :
    a[m]? = sys[m]? := by
  rcases System.stepAt_next h with ⟨-, rfl⟩ | ⟨s, t, -, -, rfl⟩
  · rfl
  · exact List.getElem?_set_ne hm.symm

/-- What the step of one DJD does is independent of the state of another (R222). -/
theorem System.stepAt_set_of_ne {j k : Nat} {sys a : System} (h : System.stepAt j sys = .next a) (hjk : j ≠ k)
    (t : State) : System.stepAt j (sys.set k t) = .next (a.set k t) := by
  have hget : (sys.set k t)[j]? = sys[j]? := List.getElem?_set_ne hjk.symm
  rcases System.stepAt_next h with ⟨hnone, rfl⟩ | ⟨s, u, hs, hu, rfl⟩
  · exact System.stepAt_of_none (hget.trans hnone)
  · rw [System.stepAt_of_step (hget.trans hs) hu, List.set_comm _ _ hjk.symm]

/-- Settles O45: the second DJD stands in `sys` as the first step left it, and the first step does not see it move. -/
theorem instancesAreIndependent : Obligations.InstancesAreIndependent := by
  intro sys a b j k hjk hj hk
  have hget : a[k]? = sys[k]? := System.stepAt_getElem?_of_ne hj hjk.symm
  refine ⟨fun m => System.stepAt_getElem?_of_ne hj, ?_⟩
  rcases System.stepAt_next hk with ⟨hnone, rfl⟩ | ⟨s, t, hs, ht, rfl⟩
  · exact ⟨sys, System.stepAt_of_none (hget ▸ hnone), hj⟩
  · exact ⟨sys.set k t, System.stepAt_of_step (hget ▸ hs) ht, System.stepAt_set_of_ne hj hjk t⟩

end Sys2Proof.Machine
end

section
/-! PROOFS. The programming sequences of the platform: descrambling applied again or to a part of the block (R235, R238), host
writes around `UNSCRAMBLE` (R239), the order in which the clients issue their accesses (R232 to R234), and a load in any order
(R232). -/

namespace Sys2Proof.Machine

/-! ### Descrambling again, or in parts -/

/-- The keys of a second descrambling cancel those of the first (R101). -/
theorem descramble_involutive : Function.Involutive descramble := fun bs =>
  List.ext_getElem? fun k => by simp [descramble_getElem?, Option.map_map, Function.comp_def]

/-- A key depends on its byte's position alone, so a prefix is descrambled as it is within the whole (R102). -/
theorem descramble_take (m : Nat) (bs : List Byte) : descramble (bs.take m) = (descramble bs).take m := by
  refine List.ext_getElem? fun k => ?_
  simp only [descramble_getElem?, List.getElem?_take]
  split_ifs <;> rfl

/-- Settles O21: descrambling is an involution, and on a prefix it is the descrambling of the prefix. -/
theorem descrambleOnceOverTheWholeBlock : Obligations.DescrambleOnceOverTheWholeBlock := by
  refine ⟨fun n bs => ?_, fun m bs hm => ?_⟩
  · rcases Nat.even_or_odd n with hn | hn
    · rw [descramble_involutive.iterate_even hn, if_pos (Nat.even_iff.1 hn), id]
    · rw [descramble_involutive.iterate_odd hn, if_neg (Nat.odd_iff.1 hn ▸ Nat.one_ne_zero)]
  · have hlength : (descramble (bs.take m)).length = m := by
      rw [descramble_length, List.length_take_of_le hm]
    rw [← descramble_take, List.take_left' hlength, descramble_involutive]

/-! ### Host writes around `UNSCRAMBLE` -/

/-- No command changes the parameters. -/
theorem exec_cfg {i : Instr} {s t : State} (h : exec i s = .next t) : t.cfg = s.cfg :=
  (issueCommand_host ((issueCommand_of_ok (decode_encode i) s).trans h)).1

/-- Settles O22: a byte written after the command is the last write of its address, and one written before is what the command
XORs with its key. -/
theorem hostWritesAreStoredAsWritten : Obligations.HostWritesAreStoredAsWritten := by
  refine fun s a v ha hv => ⟨fun t hx => ?_, fun u t hwrite hx hone hblock => ?_⟩
  · exact ⟨_, performWrb_ok ((exec_cfg hx).symm ▸ ha) hv, Memory.read_write_same t.buf a _⟩
  · obtain ⟨-, -, rfl⟩ := performWrb_next hwrite
    rw [exec_unscramble_read hx hblock, if_pos ((exec_status_eq_one hx).1 hone), State.setBuf_buf,
      Memory.read_write_same]
    rfl

/-! ### The accesses of the clients -/

/-- Lines that each stand for one access stand for these accesses. -/
theorem expandLines_map {ι : Type} {line : ι → HostLine} {access : ι → Access}
    (h : ∀ x, (line x).expand = [access x]) (xs : List ι) : expandLines (xs.map line) = xs.map access := by
  rw [expandLines, List.flatMap_map, List.map_eq_flatMap]
  simp only [h]

/-- The byte writes of a load, ascending, and then the write of `BLKLEN` (R232; log entry 12). -/
theorem expandLines_loadProgram_eq_range (blk : List Byte) :
    expandLines (loadProgram blk) =
      (List.range blk.length).map (fun k => .wrb k (blk.getD k 0#8).toNat) ++ [.wrr 0x02 blk.length] := by
  have hbyte (k : Nat) : (blk.map BitVec.toNat).getD k 0 = (blk.getD k 0#8).toNat := List.getD_map blk 0#8 BitVec.toNat
  simp only [expandLines_loadProgram, loadAccesses_eq, List.length_map, Nat.zero_add, hbyte]

/-- A grid is decoded and then read out row by row (R191). -/
theorem expandLines_grid_readGrid (off : Nat) :
    expandLines (.grid off :: readGrid) =
      [.wrr 0x03 off, .wrr 0x00 0x00000002] ++ (List.range' 0x10 48).map .rdr := by
  have hrows : (List.finRange 48).map (fun r => Reg.index (.gridRow r)) = List.range' 0x10 48 := by decide
  rw [expandLines_cons, readGrid, expandLines_map (fun _ => rfl), ← hrows, List.map_map]
  rfl

/-- A sprite is decoded and then read out row by row (R233, R234). -/
theorem expandLines_sprite_readSprite (off : Nat) :
    expandLines (.sprite off :: readSprite) =
      [.wrr 0x03 off, .wrr 0x04 24, .wrr 0x00 0x00000003] ++ (List.range' 0x40 12).map .rdr := by
  have hrows : (List.finRange 12).map (fun r => Reg.index (.sprRow r)) = List.range' 0x40 12 := by decide
  rw [expandLines_cons, readSprite, expandLines_map (fun _ => rfl), ← hrows, List.map_map]
  rfl

/-- What the level client issues: the load, and where the length test holds the decoding in the order of R233. -/
theorem expandLines_levelProgram (raw : List Byte) :
    expandLines (levelProgram raw).lines =
      expandLines (loadProgram raw) ++
        if raw.length < levelMinimum then []
        else
          [.wrr 0x00 0x00000001] ++ recordOffsets.map .rdb ++ expandLines (.grid solidBase :: readGrid) ++
            expandLines (.grid collectableBase :: readGrid) ++
            expandLines (.sprite (wallBase raw.length) :: readSprite) := by
  have hrecords : expandLines (recordOffsets.map .rdb) = recordOffsets.map .rdb := expandLines_map (fun _ => rfl) _
  have hunscramble : HostLine.unscramble.expand = [.wrr 0x00 0x00000001] := rfl
  rw [levelProgram, clientRun_lines, expandLines_append, apply_ite expandLines]
  simp only [expandLines_append, expandLines_cons, expandLines_nil, hrecords, hunscramble, List.append_nil,
    List.append_assoc]

theorem sheetProgram_error (table : SheetTable) (sheet : List Byte) :
    (sheetProgram table sheet).error =
      if sheet.length < sheetMinimum table then some .malformedSpriteSheet else none := clientRun_error ..

/-- What the sheet client issues: the load, and where it ends without an error one decoding and readout per slot (R234). -/
theorem expandLines_sheetProgram (table : SheetTable) (sheet : List Byte) :
    expandLines (sheetProgram table sheet).lines =
      expandLines (loadProgram sheet) ++
        if (sheetProgram table sheet).error = none then
          (sheetSlots table).flatMap fun e => expandLines (.sprite e.2 :: readSprite)
        else [] := by
  rw [sheetProgram_error, sheetProgram, clientRun_lines, expandLines_append]
  rcases Nat.lt_or_ge sheet.length (sheetMinimum table) with hlt | hle
  · simp only [hlt, if_true, reduceCtorEq, if_false, expandLines_nil]
  · simp only [hle.not_gt, if_true, if_false, expandLines, List.flatMap_assoc]

/-- The client of a sheet ends without an error exactly where the sheet decodes (R198). -/
theorem sheetProgram_error_eq_none_iff {table : SheetTable} {sheet : List Byte} :
    (sheetProgram table sheet).error = none ↔ ∃ sprites, decodeSheet table sheet = .ok sprites := by
  rw [sheetProgram_error]
  rcases Nat.lt_or_ge sheet.length (sheetMinimum table) with hlt | hle
  · simp [hlt, decodeSheet_of_lt hlt]
  · simp [hle.not_gt, decodeSheet_of_le hle]

theorem sheetProgram_error_eq_some_iff {table : SheetTable} {sheet : List Byte} :
    (sheetProgram table sheet).error = some .malformedSpriteSheet ↔
      decodeSheet table sheet = .error .malformedSpriteSheet := by
  rw [sheetProgram_error, decodeSheet_eq_error_iff, ite_eq_left_iff]
  simp

/-- Settles O56: each client issues its load, and what its length test lets follow is its commands, each with its readout. -/
theorem clientsIssueTheirAccessesInOrder : Obligations.ClientsIssueTheirAccessesInOrder := by
  unfold Obligations.ClientsIssueTheirAccessesInOrder
  intro load grid sprite
  refine ⟨fun raw => ⟨clientRun_error .., ?_⟩,
    fun table sheet => ⟨sheetProgram_error_eq_some_iff, sheetProgram_error_eq_none_iff, ?_⟩⟩
  · rw [expandLines_levelProgram, expandLines_loadProgram_eq_range, expandLines_grid_readGrid,
      expandLines_grid_readGrid, expandLines_sprite_readSprite]
    rfl
  · rw [expandLines_sheetProgram, expandLines_loadProgram_eq_range]
    simp only [expandLines_sprite_readSprite]
    rfl

/-! ### A load in any order -/

theorem performWrb_next_iff {a v : Nat} {s t : State} :
    performWrb a v s = .next t ↔
      a < s.cfg.bufSize ∧ v ≤ 255 ∧ t = s.setBuf (Memory.write s.buf a (BitVec.ofNat 8 v)) :=
  ⟨performWrb_next, fun ⟨ha, hv, ht⟩ => ht ▸ performWrb_ok ha hv⟩

theorem performWrr_blklen_next_iff {v : Nat} {s t : State} :
    performWrr 0x02 v s = .next t ↔ v < 2 ^ 32 ∧ t = s.setBlklen (BitVec.ofNat 32 v) := by
  refine ⟨fun h => ?_, fun ⟨hv, ht⟩ => ht ▸ performWrr_ok Reg.ofIndex_blklen hv⟩
  obtain ⟨-, -, hv, -⟩ := performWrr_next h
  cases (performWrr_ok Reg.ofIndex_blklen hv).symm.trans h
  exact ⟨hv, rfl⟩

theorem performAll_cons_next_iff {a : Access} {as : List Access} {s u : State} :
    performAll (a :: as) s = .next u ↔ ∃ t, performAccess a s = .next t ∧ performAll as t = .next u := by
  cases h : performAccess a s <;> simp [performAll, h]

theorem performAll_append_next_iff {as bs : List Access} {s u : State} :
    performAll (as ++ bs) s = .next u ↔ ∃ t, performAll as s = .next t ∧ performAll bs t = .next u := by
  induction as generalizing s with
  | nil => simp
  | cons a as ih =>
    simp only [List.cons_append, performAll_cons_next_iff, ih]
    exact ⟨fun ⟨t, ha, t2, hs, hbs⟩ => ⟨t2, ⟨t, ha, hs⟩, hbs⟩, fun ⟨t2, ⟨t, ha, hs⟩, hbs⟩ => ⟨t, ha, t2, hs, hbs⟩⟩

/-- Two accesses that may be exchanged: in either order they complete from the same states, in the same state. -/
def Exchangeable (a b : Access) : Prop := ∀ s u, performAll [a, b] s = .next u ↔ performAll [b, a] s = .next u

theorem Exchangeable.symm {a b : Access} (h : Exchangeable a b) : Exchangeable b a := fun s u => (h s u).symm

theorem performAll_pair_next_iff {a b : Access} {s u : State} :
    performAll [a, b] s = .next u ↔ ∃ t, performAccess a s = .next t ∧ performAccess b t = .next u := by
  simp [performAll_cons_next_iff]

/-- Byte writes to two addresses may be exchanged, whatever they write (R161). -/
theorem exchangeable_wrb_wrb {a b : Nat} (v w : Nat) (h : a ≠ b) : Exchangeable (.wrb a v) (.wrb b w) := by
  intro s u
  have hcomm : (s.setBuf (Memory.write s.buf a (BitVec.ofNat 8 v))).setBuf
        (Memory.write (Memory.write s.buf a (BitVec.ofNat 8 v)) b (BitVec.ofNat 8 w)) =
      (s.setBuf (Memory.write s.buf b (BitVec.ofNat 8 w))).setBuf
        (Memory.write (Memory.write s.buf b (BitVec.ofNat 8 w)) a (BitVec.ofNat 8 v)) :=
    congrArg s.setBuf (Memory.write_comm s.buf _ _ h)
  simp only [performAll_pair_next_iff, performAccess_wrb, performWrb_next_iff, and_assoc, exists_and_left,
    exists_eq_left, State.setBuf_cfg, State.setBuf_buf, hcomm]
  exact ⟨fun ⟨ha, hv, hb, hw, hu⟩ => ⟨hb, hw, ha, hv, hu⟩, fun ⟨hb, hw, ha, hv, hu⟩ => ⟨ha, hv, hb, hw, hu⟩⟩

/-- A byte write and a write of `BLKLEN` may be exchanged: neither reads what the other writes (R161, R164). -/
theorem exchangeable_wrb_blklen (a v n : Nat) : Exchangeable (.wrb a v) (.wrr 0x02 n) := by
  intro s u
  have hcomm : (s.setBuf (Memory.write s.buf a (BitVec.ofNat 8 v))).setBlklen (BitVec.ofNat 32 n) =
      (s.setBlklen (BitVec.ofNat 32 n)).setBuf (Memory.write s.buf a (BitVec.ofNat 8 v)) := rfl
  simp only [performAll_pair_next_iff, performAccess_wrb, performAccess_wrr, performWrb_next_iff,
    performWrr_blklen_next_iff, and_assoc, exists_and_left, exists_eq_left, State.setBlklen_cfg, State.setBlklen_buf,
    hcomm]
  exact ⟨fun ⟨ha, hv, hn, hu⟩ => ⟨hn, ha, hv, hu⟩, fun ⟨hn, ha, hv, hu⟩ => ⟨ha, hv, hn, hu⟩⟩

/-- Accesses of which any two may be exchanged complete in the same state in every order. -/
theorem performAll_perm {as bs : List Access} (hperm : as.Perm bs) (h : as.Pairwise Exchangeable) {s u : State} :
    performAll as s = .next u ↔ performAll bs s = .next u := by
  induction hperm generalizing s with
  | nil => rfl
  | cons a _ ih =>
    simp only [performAll_cons_next_iff, ih (List.pairwise_cons.1 h).2]
  | swap a b rest =>
    have hpair : Exchangeable b a := (List.pairwise_cons.1 h).1 a List.mem_cons_self
    change performAll ([b, a] ++ rest) s = .next u ↔ performAll ([a, b] ++ rest) s = .next u
    simp only [performAll_append_next_iff, hpair s]
  | trans hp _ ih1 ih2 =>
    exact (ih1 h).trans (ih2 (h.perm hp Exchangeable.symm))

/-- Any two accesses of a load may be exchanged: the addresses differ, and `BLKLEN` is written once (R232). -/
theorem pairwise_exchangeable_loadProgram (raw : List Byte) :
    (expandLines (loadProgram raw)).Pairwise Exchangeable := by
  rw [expandLines_loadProgram_eq_range, List.pairwise_append, List.pairwise_map]
  refine ⟨List.nodup_range.imp fun hne => exchangeable_wrb_wrb _ _ hne, List.pairwise_singleton .., ?_⟩
  simp [exchangeable_wrb_blklen]

/-- Settles O58: the load completes, and so does every order of its accesses, in the same state. -/
theorem loadOrderDoesNotMatter : Obligations.LoadOrderDoesNotMatter := by
  intro s raw writes hfits hlength hperm
  have hload := performAll_loadProgram (s := s) hfits hlength
  exact ⟨_, (performAll_perm hperm.symm (pairwise_exchangeable_loadProgram raw)).1 hload, hload⟩

end Sys2Proof.Machine
end
